-- ==== Sys2Proof/Word.lean ====
section
/-! DEFINITION. The widths of lujon/chip8 CORE's values (00_scope.md R11, 10_state.md R18..R22). -/

namespace Sys2Proof

/-- `u8`: a V register, a timer, a memory byte, an immediate `kk`. -/
abbrev Byte := BitVec 8

/-- `u16`: an instruction word, PC, I, a call-stack entry. -/
abbrev Word := BitVec 16

/-- `u12`: the absolute address field `nnn`. -/
abbrev Addr12 := BitVec 12

/-- One hex digit of an instruction word. -/
abbrev Nibble := BitVec 4

/-- A register number, the index of V0..VF. -/
abbrev RegIdx := Fin 16

/-- A sprite's row count, the field `n`. -/
abbrev RowCount := Fin 16

end Sys2Proof
end

