-- ==== Sys2Proof/Config.lean ====
section
/-! DEFINITION. The parameters of the block with the value this hardware takes (00_scope.md R9), and the free values. -/

namespace Sys2Proof.Config

/-- `MEM_SIZE`: addresses 0x000..0xFFF. -/
abbrev memSize : Nat := 4096

/-- `PROGRAM_START`, where `Load` places the image and where PC starts. -/
abbrev programStart : Nat := 0x200

/-- `MAX_PROGRAM_LEN`. -/
abbrev maxProgramLen : Nat := memSize - programStart

/-- `FONT_START_ADDRESS`. PRESUMED by the spec itself (decision D2): see notes/assumptions/8.md. -/
abbrev fontStart : Nat := 0x050

/-- `FONT_GLYPHS`. -/
abbrev fontGlyphs : Nat := 16

/-- `GLYPH_BYTES`. -/
abbrev glyphBytes : Nat := 5

/-- Size of the font region in bytes. -/
abbrev fontLen : Nat := fontGlyphs * glyphBytes

/-- `FONT_DATA`: one row a glyph, top row first (20_memory.md R38). PRESUMED by the spec itself (decision D3):
see notes/assumptions/8.md. -/
def fontData : List Byte :=
  [0xF0, 0x90, 0x90, 0x90, 0xF0] ++ [0x20, 0x60, 0x20, 0x20, 0x70] ++
  [0xF0, 0x10, 0xF0, 0x80, 0xF0] ++ [0xF0, 0x10, 0xF0, 0x10, 0xF0] ++
  [0x90, 0x90, 0xF0, 0x10, 0x10] ++ [0xF0, 0x80, 0xF0, 0x10, 0xF0] ++
  [0xF0, 0x80, 0xF0, 0x90, 0xF0] ++ [0xF0, 0x10, 0x20, 0x40, 0x40] ++
  [0xF0, 0x90, 0xF0, 0x90, 0xF0] ++ [0xF0, 0x90, 0xF0, 0x10, 0xF0] ++
  [0xF0, 0x90, 0xF0, 0x90, 0x90] ++ [0xE0, 0x90, 0xE0, 0x90, 0xE0] ++
  [0xF0, 0x80, 0x80, 0x80, 0xF0] ++ [0xE0, 0x90, 0x90, 0x90, 0xE0] ++
  [0xF0, 0x80, 0xF0, 0x80, 0xF0] ++ [0xF0, 0x80, 0xF0, 0x80, 0x80]

/-- `NUM_V`. -/
abbrev numV : Nat := 16

/-- `I_WIDTH`, in bits. -/
abbrev iWidth : Nat := 16

/-- `PC_WIDTH`, in bits; a return address has it too (10_state.md R21). -/
abbrev pcWidth : Nat := 16

/-- `DT_WIDTH`, in bits. -/
abbrev dtWidth : Nat := 8

/-- `ST_WIDTH`, in bits. -/
abbrev stWidth : Nat := 8

/-- `STACK_DEPTH`. -/
abbrev stackDepth : Nat := 16

/-- `DISPLAY_W`. -/
abbrev displayW : Nat := 64

/-- `DISPLAY_H`. -/
abbrev displayH : Nat := 32

/-- `CLIP_LAST_PIXEL_DRAWN` (40_display.md R71, decision D10): see notes/assumptions/11.md. -/
def clipLastPixelDrawn : Bool := true

/-- The values of `FONT_WRITE_POLICY` (20_memory.md R39). -/
inductive FontWritePolicy where
  /-- a write into the font region is performed like any other -/
  | store
  /-- a write into the font region raises `FontWrite` -/
  | fault
  deriving DecidableEq, Repr

/-- `FONT_WRITE_POLICY` of this hardware (decision D18): see notes/assumptions/12.md. -/
def fontWritePolicy : FontWritePolicy := .store

/-- The values of `VF_WRITE_ORDER` (42_register_alu.md R89, 93_implementation_defined.md U6). -/
inductive VFWriteOrder where
  /-- sample the operands, write Vx, then write the flag -/
  | flagLast
  /-- sample the operands, write the flag, then write Vx -/
  | resultLast
  /-- write the flag, then compute the result from the registers as they are then, and write Vx -/
  | literal
  deriving DecidableEq, Repr

/-- `VF_WRITE_ORDER` of this hardware (decision D9): see notes/assumptions/10.md. -/
def vfWriteOrder : VFWriteOrder := .flagLast

/-- FREE VALUE. `RAND`: the byte of the n-th draw, any value in 0..255, successive bytes unrelated (10_state.md R27,
93_implementation_defined.md U7): see notes/assumptions/4.md. -/
opaque randByte : Nat → Byte

/-- FREE VALUE. What PC holds when the exact sum `PC + 2` does not fit its `PC_WIDTH` bits, a value the spec does not state
(10_state.md R22): see notes/assumptions/5.md. -/
opaque pcBeyond : Nat → BitVec pcWidth

end Sys2Proof.Config
end

