-- ==== Sys2Proof/Syntax.lean ====
section
/-! DEFINITION. The 30 instructions of 30_encoding.md R56, one constructor per row of spec/opcode_table.json. -/

namespace Sys2Proof

/-- An instruction with its decoded fields. Operand ranges (R53) are carried by the field types. -/
inductive Instr where
  /-- `00E0` CLS (R68) -/
  | cls
  /-- `00EE` RET (R79) -/
  | ret
  /-- `1nnn` JP nnn (R80) -/
  | jp (nnn : Addr12)
  /-- `2nnn` CALL nnn (R81) -/
  | call (nnn : Addr12)
  /-- `3xkk` SE Vx, kk (R82) -/
  | seImm (x : RegIdx) (kk : Byte)
  /-- `4xkk` SNE Vx, kk (R83) -/
  | sneImm (x : RegIdx) (kk : Byte)
  /-- `5xy0` SE Vx, Vy (R84) -/
  | seReg (x y : RegIdx)
  /-- `6xkk` LD Vx, kk (R90) -/
  | ldImm (x : RegIdx) (kk : Byte)
  /-- `7xkk` ADD Vx, kk (R91) -/
  | addImm (x : RegIdx) (kk : Byte)
  /-- `8xy0` LD Vx, Vy (R92) -/
  | ldReg (x y : RegIdx)
  /-- `8xy1` OR Vx, Vy (R93) -/
  | orReg (x y : RegIdx)
  /-- `8xy2` AND Vx, Vy (R94) -/
  | andReg (x y : RegIdx)
  /-- `8xy3` XOR Vx, Vy (R95) -/
  | xorReg (x y : RegIdx)
  /-- `8xy4` ADD Vx, Vy (R96) -/
  | addReg (x y : RegIdx)
  /-- `8xy5` SUB Vx, Vy (R97) -/
  | sub (x y : RegIdx)
  /-- `8xy6` SHR Vx {, Vy} (R98); `y` is the don't-care field (R54) -/
  | shr (x y : RegIdx)
  /-- `8xy7` SUBN Vx, Vy (R99) -/
  | subn (x y : RegIdx)
  /-- `8xyE` SHL Vx {, Vy} (R100); `y` is the don't-care field (R54) -/
  | shl (x y : RegIdx)
  /-- `9xy0` SNE Vx, Vy (R85) -/
  | sneReg (x y : RegIdx)
  /-- `Annn` LD I, nnn (R103) -/
  | ldI (nnn : Addr12)
  /-- `Bnnn` JP V0, nnn (R87) -/
  | jpV0 (nnn : Addr12)
  /-- `Cxkk` RND Vx, kk (R101) -/
  | rnd (x : RegIdx) (kk : Byte)
  /-- `Dxyn` DRW Vx, Vy, n (R70) -/
  | drw (x y : RegIdx) (n : RowCount)
  /-- `Fx07` LD Vx, DT (R106) -/
  | ldVxDt (x : RegIdx)
  /-- `Fx15` LD DT, Vx (R107) -/
  | ldDtVx (x : RegIdx)
  /-- `Fx1E` ADD I, Vx (R104) -/
  | addI (x : RegIdx)
  /-- `Fx29` LD F, Vx (R105) -/
  | ldF (x : RegIdx)
  /-- `Fx33` LD B, Vx (R109) -/
  | ldB (x : RegIdx)
  /-- `Fx55` LD [I], Vx (R110) -/
  | ldMemVx (x : RegIdx)
  /-- `Fx65` LD Vx, [I] (R111) -/
  | ldVxMem (x : RegIdx)
  deriving DecidableEq, Repr

end Sys2Proof
end

