-- ==== Sys2Proof/WellFormed.lean ====
section
/-! DEFINITION. Well-formedness: operand ranges (30_encoding.md R53), program images (20_memory.md R40) and the font's
place (20_memory.md R37). -/

namespace Sys2Proof

/-- The kinds of operand field of 30_encoding.md R51, R53. -/
inductive FieldKind where
  /-- `x` or `y`, a register index 0..15 -/
  | reg
  /-- `kk`, an 8-bit immediate -/
  | imm
  /-- `nnn`, a 12-bit absolute address -/
  | addr
  /-- `n`, a row count 0..15 -/
  | rows
  deriving DecidableEq, Repr

/-- The number of bits of a field (R51). -/
def FieldKind.width : FieldKind → Nat
  | .reg => 4
  | .imm => 8
  | .addr => 12
  | .rows => 4

/-- Does a number fit the field? -/
def FieldKind.fits (k : FieldKind) (v : Nat) : Bool := decide (v < 2 ^ k.width)

/-- An instruction's operands as (kind, number) pairs, in the order of R65's syntax. -/
def Instr.operands : Instr → List (FieldKind × Nat)
  | .cls | .ret => []
  | .jp nnn | .call nnn | .ldI nnn | .jpV0 nnn => [(.addr, nnn.toNat)]
  | .seImm x kk | .sneImm x kk | .ldImm x kk | .addImm x kk | .rnd x kk => [(.reg, x.val), (.imm, kk.toNat)]
  | .seReg x y | .sneReg x y | .ldReg x y | .orReg x y | .andReg x y | .xorReg x y
  | .addReg x y | .sub x y | .shr x y | .subn x y | .shl x y => [(.reg, x.val), (.reg, y.val)]
  | .drw x y n => [(.reg, x.val), (.reg, y.val), (.rows, n.val)]
  | .ldVxDt x | .ldDtVx x | .addI x | .ldF x | .ldB x | .ldMemVx x | .ldVxMem x => [(.reg, x.val)]

/-- A list of operand numbers fits its fields. -/
def operandsFit (ops : List (FieldKind × Nat)) : Bool := ops.all fun o => o.1.fits o.2

/-- An instruction is well-formed when every operand fits its field. The field types of `Instr` carry these bounds, so
every `Instr` is well-formed (`Laws.instr_wellFormed`); the check itself refuses raw operands that do not fit. -/
def Instr.wellFormed (i : Instr) : Bool := operandsFit i.operands

/-- A program image `Load` accepts (R40): at most `MAX_PROGRAM_LEN` bytes. -/
def imageWellFormed (bytes : List Byte) : Bool := decide (bytes.length ≤ Config.maxProgramLen)

/-- A font of full size that does not reach the program (R37). -/
def fontWellFormed (start : Nat) (data : List Byte) : Bool :=
  decide (data.length = Config.fontLen) && decide (start + Config.fontLen ≤ Config.programStart)

end Sys2Proof
end

