-- ==== Sys2Proof/Decode.lean ====
section
/-! DEFINITION. The opcode table, the decoder and the encoder (30_encoding.md R51..R61). -/

namespace Sys2Proof

/-! ### Byte order and fields -/

/-- The word of two bytes in memory order, big-endian (20_memory.md R42): the byte at the lower address is bits 15:8. -/
def wordOfBytes (hi lo : Byte) : Word := hi ++ lo

/-- The byte stored at the lower address, bits 15:8 (R42). -/
def hiByte (w : Word) : Byte := w.extractLsb' 8 8

/-- The byte stored at the higher address, bits 7:0 (R42). -/
def loByte (w : Word) : Byte := w.extractLsb' 0 8

/-- The word whose hex digits are `a b c d`, as written (00_scope.md R10). -/
def ofNibbles (a b c d : Nibble) : Word := a ++ b ++ c ++ d

/-- A register number or row count as a hex digit. -/
def nibbleOf (x : Fin 16) : Nibble := BitVec.ofFin x

/-- `op`, w[15:12] (R51). -/
def fieldOp (w : Word) : Nibble := w.extractLsb' 12 4

/-- `x`, w[11:8] (R51). -/
def fieldX (w : Word) : RegIdx := (w.extractLsb' 8 4).toFin

/-- `y`, w[7:4] (R51). -/
def fieldY (w : Word) : RegIdx := (w.extractLsb' 4 4).toFin

/-- `n`, w[3:0] (R51). -/
def fieldN (w : Word) : RowCount := (w.extractLsb' 0 4).toFin

/-- `kk`, w[7:0] (R51). -/
def fieldKK (w : Word) : Byte := w.extractLsb' 0 8

/-- `nnn`, w[11:0] (R51). -/
def fieldNNN (w : Word) : Addr12 := w.extractLsb' 0 12

/-! ### The opcode table -/

/-- A row of R56: a word is the instruction when `w &&& mask = matchBits`. -/
structure Row where
  mnemonic : String
  matchBits : Word
  mask : Word
  build : Word → Instr

/-- R56's match test. -/
def Row.accepts (r : Row) (w : Word) : Bool := w &&& r.mask == r.matchBits

/-- R56, rows 1..11. -/
def opcodeRowsA : List Row := [
  ⟨"CLS", 0x00E0, 0xFFFF, fun _ => .cls⟩,
  ⟨"RET", 0x00EE, 0xFFFF, fun _ => .ret⟩,
  ⟨"JP_nnn", 0x1000, 0xF000, fun w => .jp (fieldNNN w)⟩,
  ⟨"CALL_nnn", 0x2000, 0xF000, fun w => .call (fieldNNN w)⟩,
  ⟨"SE_Vx__kk", 0x3000, 0xF000, fun w => .seImm (fieldX w) (fieldKK w)⟩,
  ⟨"SNE_Vx__kk", 0x4000, 0xF000, fun w => .sneImm (fieldX w) (fieldKK w)⟩,
  ⟨"SE_Vx__Vy", 0x5000, 0xF00F, fun w => .seReg (fieldX w) (fieldY w)⟩,
  ⟨"LD_Vx__kk", 0x6000, 0xF000, fun w => .ldImm (fieldX w) (fieldKK w)⟩,
  ⟨"ADD_Vx__kk", 0x7000, 0xF000, fun w => .addImm (fieldX w) (fieldKK w)⟩,
  ⟨"LD_Vx__Vy", 0x8000, 0xF00F, fun w => .ldReg (fieldX w) (fieldY w)⟩,
  ⟨"OR_Vx__Vy", 0x8001, 0xF00F, fun w => .orReg (fieldX w) (fieldY w)⟩]

/-- R56, rows 12..21. -/
def opcodeRowsB : List Row := [
  ⟨"AND_Vx__Vy", 0x8002, 0xF00F, fun w => .andReg (fieldX w) (fieldY w)⟩,
  ⟨"XOR_Vx__Vy", 0x8003, 0xF00F, fun w => .xorReg (fieldX w) (fieldY w)⟩,
  ⟨"ADD_Vx__Vy", 0x8004, 0xF00F, fun w => .addReg (fieldX w) (fieldY w)⟩,
  ⟨"SUB_Vx__Vy", 0x8005, 0xF00F, fun w => .sub (fieldX w) (fieldY w)⟩,
  ⟨"SHR_Vx____Vy", 0x8006, 0xF00F, fun w => .shr (fieldX w) (fieldY w)⟩,
  ⟨"SUBN_Vx__Vy", 0x8007, 0xF00F, fun w => .subn (fieldX w) (fieldY w)⟩,
  ⟨"SHL_Vx____Vy", 0x800E, 0xF00F, fun w => .shl (fieldX w) (fieldY w)⟩,
  ⟨"SNE_Vx__Vy", 0x9000, 0xF00F, fun w => .sneReg (fieldX w) (fieldY w)⟩,
  ⟨"LD_I__nnn", 0xA000, 0xF000, fun w => .ldI (fieldNNN w)⟩,
  ⟨"JP_V0__nnn", 0xB000, 0xF000, fun w => .jpV0 (fieldNNN w)⟩]

/-- R56, rows 22..30. -/
def opcodeRowsC : List Row := [
  ⟨"RND_Vx__kk", 0xC000, 0xF000, fun w => .rnd (fieldX w) (fieldKK w)⟩,
  ⟨"DRW_Vx__Vy__n", 0xD000, 0xF000, fun w => .drw (fieldX w) (fieldY w) (fieldN w)⟩,
  ⟨"LD_Vx__DT", 0xF007, 0xF0FF, fun w => .ldVxDt (fieldX w)⟩,
  ⟨"LD_DT__Vx", 0xF015, 0xF0FF, fun w => .ldDtVx (fieldX w)⟩,
  ⟨"ADD_I__Vx", 0xF01E, 0xF0FF, fun w => .addI (fieldX w)⟩,
  ⟨"LD_F__Vx", 0xF029, 0xF0FF, fun w => .ldF (fieldX w)⟩,
  ⟨"LD_B__Vx", 0xF033, 0xF0FF, fun w => .ldB (fieldX w)⟩,
  ⟨"LD__I___Vx", 0xF055, 0xF0FF, fun w => .ldMemVx (fieldX w)⟩,
  ⟨"LD_Vx___I", 0xF065, 0xF0FF, fun w => .ldVxMem (fieldX w)⟩]

/-- The 30 rows of R56. -/
def opcodeTable : List Row := opcodeRowsA ++ opcodeRowsB ++ opcodeRowsC

/-! ### Decoder -/

/-- `Decode(w)` of R59: the first row that matches, with its fields; `none` is the spec's `Unsupported` (R60). -/
def decode (w : Word) : Option Instr := (opcodeTable.find? fun r => r.accepts w).map fun r => r.build w

/-- What the decoder reads from a list of bytes. -/
inductive Decoded where
  /-- an instruction and the bytes after it -/
  | instr (i : Instr) (rest : List Byte)
  /-- a word no row of R56 matches (R60), with the raw word -/
  | unsupported (w : Word)
  /-- fewer bytes than the two an instruction takes (R55) -/
  | truncated (got : List Byte)
  deriving DecidableEq, Repr

/-- Total decoding of a byte stream; each instruction is exactly two bytes, high byte first (R42, R55). -/
def decodeBytes : List Byte → Decoded
  | hi :: lo :: rest =>
    match decode (wordOfBytes hi lo) with
    | some i => .instr i rest
    | none => .unsupported (wordOfBytes hi lo)
  | short => .truncated short

/-! ### Encoder -/

/-- `op nnn`, format NNN (R52). -/
def encodeNNN (op : Nibble) (nnn : Addr12) : Word := op ++ nnn

/-- `op x kk`, format XKK (R52). -/
def encodeXKK (op : Nibble) (x : RegIdx) (kk : Byte) : Word := op ++ nibbleOf x ++ kk

/-- `op x y s`, formats XY0, XYS and XYN (R52). -/
def encodeXYS (op : Nibble) (x y : RegIdx) (s : Nibble) : Word := ofNibbles op (nibbleOf x) (nibbleOf y) s

/-- `F x ss`, format XS (R52). -/
def encodeXS (x : RegIdx) (ss : Byte) : Word := encodeXKK 0xF x ss

/-- The word of an instruction, from R52 and R56. -/
def encode : Instr → Word
  | .cls => 0x00E0
  | .ret => 0x00EE
  | .jp nnn => encodeNNN 0x1 nnn
  | .call nnn => encodeNNN 0x2 nnn
  | .seImm x kk => encodeXKK 0x3 x kk
  | .sneImm x kk => encodeXKK 0x4 x kk
  | .seReg x y => encodeXYS 0x5 x y 0x0
  | .ldImm x kk => encodeXKK 0x6 x kk
  | .addImm x kk => encodeXKK 0x7 x kk
  | .ldReg x y => encodeXYS 0x8 x y 0x0
  | .orReg x y => encodeXYS 0x8 x y 0x1
  | .andReg x y => encodeXYS 0x8 x y 0x2
  | .xorReg x y => encodeXYS 0x8 x y 0x3
  | .addReg x y => encodeXYS 0x8 x y 0x4
  | .sub x y => encodeXYS 0x8 x y 0x5
  | .shr x y => encodeXYS 0x8 x y 0x6
  | .subn x y => encodeXYS 0x8 x y 0x7
  | .shl x y => encodeXYS 0x8 x y 0xE
  | .sneReg x y => encodeXYS 0x9 x y 0x0
  | .ldI nnn => encodeNNN 0xA nnn
  | .jpV0 nnn => encodeNNN 0xB nnn
  | .rnd x kk => encodeXKK 0xC x kk
  | .drw x y n => encodeXYS 0xD x y (nibbleOf n)
  | .ldVxDt x => encodeXS x 0x07
  | .ldDtVx x => encodeXS x 0x15
  | .addI x => encodeXS x 0x1E
  | .ldF x => encodeXS x 0x29
  | .ldB x => encodeXS x 0x33
  | .ldMemVx x => encodeXS x 0x55
  | .ldVxMem x => encodeXS x 0x65

/-- The word's two bytes in memory order. -/
def bytesOfWord (w : Word) : List Byte := [hiByte w, loByte w]

/-! ### The host's numbering -/

/-- The instruction word whose bits 0.. are those of `w`, bits from `nbits` up being 0: see notes/assumptions/19.md. -/
def tableWord (nbits w : Nat) : Word := BitVec.ofNat 16 (w % 2 ^ nbits)

/-- What `decodeBytes` reads from an instruction numbered as spec/opcode_table.json numbers its bits. -/
def decodeTableWord (nbits w : Nat) : Option Instr :=
  match decodeBytes (bytesOfWord (tableWord nbits w)) with
  | .instr i _ => some i
  | .unsupported _ => none
  | .truncated _ => none

/-! ### Listing syntax (30_encoding.md R65), which has no meaning to the hardware -/

/-- A hex digit. -/
def hexDigit (n : Nat) : String :=
  ["0", "1", "2", "3", "4", "5", "6", "7", "8", "9", "A", "B", "C", "D", "E", "F"].getD n "?"

/-- `V0`..`VF`. -/
def regName (x : RegIdx) : String := "V" ++ hexDigit x.val

/-- A byte in hex. -/
def hexByte (b : Byte) : String := "0x" ++ hexDigit (b.toNat / 16) ++ hexDigit (b.toNat % 16)

/-- An address in hex. -/
def hexAddr (a : Addr12) : String :=
  "0x" ++ hexDigit (a.toNat / 256) ++ hexDigit (a.toNat / 16 % 16) ++ hexDigit (a.toNat % 16)

/-- A row count 0..15. -/
def rowCountText (n : RowCount) : String := (if n.val < 10 then "" else "1") ++ hexDigit (n.val % 10)

/-- Two operands. -/
def twoOps (m a b : String) : String := m ++ " " ++ a ++ ", " ++ b

/-- The instruction as R65 writes it. `8xy6` and `8xyE` are written with their optional second operand, so that the
don't-care digit is not lost. -/
def listing : Instr → String
  | .cls => "CLS"
  | .ret => "RET"
  | .jp nnn => "JP " ++ hexAddr nnn
  | .call nnn => "CALL " ++ hexAddr nnn
  | .seImm x kk => twoOps "SE" (regName x) (hexByte kk)
  | .sneImm x kk => twoOps "SNE" (regName x) (hexByte kk)
  | .seReg x y => twoOps "SE" (regName x) (regName y)
  | .ldImm x kk => twoOps "LD" (regName x) (hexByte kk)
  | .addImm x kk => twoOps "ADD" (regName x) (hexByte kk)
  | .ldReg x y => twoOps "LD" (regName x) (regName y)
  | .orReg x y => twoOps "OR" (regName x) (regName y)
  | .andReg x y => twoOps "AND" (regName x) (regName y)
  | .xorReg x y => twoOps "XOR" (regName x) (regName y)
  | .addReg x y => twoOps "ADD" (regName x) (regName y)
  | .sub x y => twoOps "SUB" (regName x) (regName y)
  | .shr x y => twoOps "SHR" (regName x) (regName y)
  | .subn x y => twoOps "SUBN" (regName x) (regName y)
  | .shl x y => twoOps "SHL" (regName x) (regName y)
  | .sneReg x y => twoOps "SNE" (regName x) (regName y)
  | .ldI nnn => twoOps "LD" "I" (hexAddr nnn)
  | .jpV0 nnn => twoOps "JP" "V0" (hexAddr nnn)
  | .rnd x kk => twoOps "RND" (regName x) (hexByte kk)
  | .drw x y n => twoOps "DRW" (regName x) (regName y) ++ ", " ++ rowCountText n
  | .ldVxDt x => twoOps "LD" (regName x) "DT"
  | .ldDtVx x => twoOps "LD" "DT" (regName x)
  | .addI x => twoOps "ADD" "I" (regName x)
  | .ldF x => twoOps "LD" "F" (regName x)
  | .ldB x => twoOps "LD" "B" (regName x)
  | .ldMemVx x => twoOps "LD" "[I]" (regName x)
  | .ldVxMem x => twoOps "LD" (regName x) "[I]"

end Sys2Proof
end

