-- ==== Sys2Proof/Machine/State.lean ====
section
/-! DEFINITION. The machine's state (10_state.md R18..R29), its fault and refusal reasons, and its value at reset
(70_reset_and_hazards.md R132). -/

namespace Sys2Proof.Machine

/-- The fault kinds of 60_exceptions.md R112 with the information each records. A `raise` latches one in `State.status`
and answers a next state; a `Step`, `Execute`, `Load` or `TickDelay` of a block that is already `Faulted` answers
`Outcome.fault` with the latched one (R118, notes/assumptions/1.md). -/
inductive Fault where
  /-- code 1, raised by decode in `Step` and `Execute`, with the raw word (R113). Safe: the spec's own fatal fault. -/
  | unsupportedInstruction (w : Word)
  /-- code 2, raised by `00EE` on an empty stack, with SP (R114). Safe: the spec's own fatal fault. -/
  | stackUnderflow (sp : Nat)
  /-- code 3, raised by `2nnn` on a full stack, with SP (R115). Safe: the spec's own fatal fault. -/
  | stackOverflow (sp : Nat)
  /-- code 4, raised by the fetch, `Dxyn`, `Fx33`, `Fx55`, `Fx65` above 0xFFF, with the address (R116). Safe: the
  spec's own fatal fault. -/
  | memoryOutOfRange (addr : Nat)
  /-- code 5, raised by `Load`, with the program length (20_memory.md R41). Safe: the spec's own fatal fault. -/
  | loadRejected (len : Nat)
  /-- code 6, raised by `Fx33`, `Fx55` under `FONT_WRITE_POLICY = fault` only, with the address (20_memory.md R39). Safe:
  the spec's own fatal fault; it is never raised under this hardware's policy. -/
  | fontWrite (addr : Nat)
  deriving DecidableEq, Repr

/-- Why a transaction has no meaning. -/
inductive Refusal where
  /-- Answered by no meaning: an arm of `exec` without a meaning would answer it. Safe: nothing runs. -/
  | notModelled (mnemonic : String)
  /-- Answered by `load` when a `Load`, `Step` or `Execute` has already run: "refused (no effect)" (20_memory.md R40).
  Safe: the spec's own refusal, no state changes. -/
  | loadClosed
  deriving DecidableEq, Repr

/-- The status latch (10_state.md R26). -/
inductive Status where
  | running
  | faulted (f : Fault)
  deriving DecidableEq, Repr

/-- The 64×32 grid of Booleans, row-major: row `y`, then column `x` (10_state.md R23). -/
abbrev Framebuffer := Vector (Vector Bool Config.displayW) Config.displayH

/-- The register file V0..VF (10_state.md R18). -/
abbrev RegFile := Vector Byte Config.numV

/-- The entries of the call stack, each as wide as PC (10_state.md R21). -/
abbrev CallStack := Vector (BitVec Config.pcWidth) Config.stackDepth

/-- The values of the depth counter SP, 0 .. `STACK_DEPTH` (10_state.md R21). -/
abbrev StackCount := Fin (Config.stackDepth + 1)

/-- The bytes that differ from the reset contents, by strictly rising address (see `Memory.wf`). -/
abbrev Memory := List Host.Cell

/-- Every piece of state the spec gives the machine; INVENTORY.md lists them with their rules. -/
structure State where
  /-- V0..VF (R18) -/
  v : RegFile
  /-- index register I (R20) -/
  i : BitVec Config.iWidth
  /-- program counter (R22) -/
  pc : BitVec Config.pcWidth
  /-- call stack entries (R21) -/
  stack : CallStack
  /-- call stack depth counter, 0..16 (R21) -/
  sp : StackCount
  /-- delay timer (R24) -/
  dt : BitVec Config.dtWidth
  /-- sound timer (R24) -/
  st : BitVec Config.stWidth
  /-- framebuffer (R23) -/
  fb : Framebuffer
  /-- the 4096-byte store (R29) -/
  mem : Memory
  /-- status latch (R26) -/
  status : Status
  /-- is `Load` still accepted (20_memory.md R40) -/
  loadOpen : Bool
  /-- answers the host's random-byte generator will give, first answer first (R27) -/
  randQueue : List Byte
  /-- random bytes drawn so far (the model's own: it numbers the free values) -/
  randDrawn : Nat
  deriving DecidableEq, Repr

/-- What one transaction answers. -/
abbrev Result := Host.Outcome State Fault Refusal

/-- `Reset(rand)` (R132), `rand` being the answers the host's generator gives first; after them a draw is a free value. -/
def State.resetWith (rand : List Byte) : State where
  v := Vector.replicate Config.numV 0
  i := 0
  pc := BitVec.ofNat Config.pcWidth Config.programStart
  stack := Vector.replicate Config.stackDepth 0
  sp := 0
  dt := 0
  st := 0
  fb := Vector.replicate Config.displayH (Vector.replicate Config.displayW false)
  mem := []
  status := .running
  loadOpen := true
  randQueue := rand
  randDrawn := 0

/-- The machine right after reset (R132). -/
def State.reset : State := State.resetWith []

end Sys2Proof.Machine
end

