-- ==== Sys2Proof/Machine/Ops.lean ====
section
/-! DEFINITION. The shared operations over registers, memory, stack, framebuffer, timers and the status latch. -/

namespace Sys2Proof.Machine

/-! ### Field updates -/

def State.setV (s : State) (v : RegFile) : State := { s with v := v }
def State.setI (s : State) (w : BitVec Config.iWidth) : State := { s with i := w }
def State.setPc (s : State) (w : BitVec Config.pcWidth) : State := { s with pc := w }
def State.setStack (s : State) (stack : CallStack) (sp : StackCount) : State := { s with stack := stack, sp := sp }
def State.setDt (s : State) (b : BitVec Config.dtWidth) : State := { s with dt := b }
def State.setFb (s : State) (fb : Framebuffer) : State := { s with fb := fb }
def State.setMem (s : State) (m : Memory) : State := { s with mem := m }
def State.setStatus (s : State) (l : Status) : State := { s with status := l }
def State.setLoadOpen (s : State) (b : Bool) : State := { s with loadOpen := b }
def State.setRand (s : State) (queue : List Byte) (drawn : Nat) : State :=
  { s with randQueue := queue, randDrawn := drawn }

/-! ### General registers (10_state.md R18, 00_scope.md R12) -/

/-- `V[x]`. -/
def State.readV (s : State) (x : RegIdx) : Byte := s.v[x]

/-- `V[x] <- b`. -/
def State.writeV (s : State) (x : RegIdx) (b : Byte) : State := s.setV (s.v.set x b)

/-- VF, the flag output (R19). -/
abbrev regVF : RegIdx := 15

/-! ### Faults (60_exceptions.md R112, R117) -/

/-- The numeric codes of R112. -/
def faultCode : Fault → Nat
  | .unsupportedInstruction _ => 1
  | .stackUnderflow _ => 2
  | .stackOverflow _ => 3
  | .memoryOutOfRange _ => 4
  | .loadRejected _ => 5
  | .fontWrite _ => 6

/-- The information R112 records with a fault, as a number. -/
def faultInfo : Fault → Nat
  | .unsupportedInstruction w => w.toNat
  | .stackUnderflow sp => sp
  | .stackOverflow sp => sp
  | .memoryOutOfRange a => a
  | .loadRejected len => len
  | .fontWrite a => a

/-- `raise F(info)` (R117): the latch becomes `Faulted(F, info)`, and nothing else changes. Whoever raises answers this
state and stops there, which keeps what the transaction did before. -/
def State.raise (s : State) (f : Fault) : State := s.setStatus (.faulted f)

/-! ### Memory (20_memory.md R33..R39) -/

/-- Is the address one of the font region's (00_scope.md R17)? -/
def inFont (a : Nat) : Bool := decide (Config.fontStart ≤ a) && decide (a < Config.fontStart + Config.fontLen)

/-- What a byte of memory holds at reset, which is what an unlisted address reads as: the font in its region, 0x00
elsewhere (70_reset_and_hazards.md R132 rows 1, 2; 20_memory.md R36). -/
def resetByte (a : Nat) : Byte := if inFont a then Config.fontData.getD (a - Config.fontStart) 0 else 0

/-- One byte of the store, with no range check. -/
def Memory.read : Memory → Nat → Byte
  | [], a => resetByte a
  | (k, b) :: m, a => if k = a then b else Memory.read m a

/-- Put a byte before the rest of a canonical memory, unless it is what the unlisted address reads as. -/
def Memory.consByte (a : Nat) (b : Byte) (m : Memory) : Memory := if b = resetByte a then m else (a, b) :: m

/-- One byte written, with no range check, keeping the canonical form. -/
def Memory.write : Memory → Nat → Byte → Memory
  | [], a, b => Memory.consByte a b []
  | (k, c) :: m, a, b =>
    if a < k then Memory.consByte a b ((k, c) :: m)
    else if a = k then Memory.consByte a b m
    else (k, c) :: Memory.write m a b

/-- Bytes written at ascending addresses, with no range check. -/
def Memory.writeBytes : Memory → Nat → List Byte → Memory
  | m, _, [] => m
  | m, a, b :: bs => Memory.writeBytes (Memory.write m a b) (a + 1) bs

/-- Are the entries' addresses strictly rising, above `lo` and inside the address space, and does no entry equal what the
unlisted address reads as? -/
def Memory.wfFrom : Nat → Memory → Bool
  | _, [] => true
  | lo, (k, b) :: m => decide (lo ≤ k) && decide (k < Config.memSize) && decide (b ≠ resetByte k) && Memory.wfFrom (k + 1) m

/-- The canonical form of memory: equal memories are equal lists (`Laws`). -/
def Memory.wf (m : Memory) : Bool := Memory.wfFrom 0 m

/-- `MemRead(addr, 1)` of R35. -/
def memRead (s : State) (a : Nat) : Except Fault Byte :=
  if Config.memSize ≤ a then .error (.memoryOutOfRange a) else .ok (s.mem.read a)

/-- `MemWrite(addr, 1, v)` of R35 and R39: range is checked before font (60_exceptions.md R119). -/
def memWrite (p : Config.FontWritePolicy) (s : State) (a : Nat) (b : Byte) : Except Fault State :=
  if Config.memSize ≤ a then .error (.memoryOutOfRange a)
  else if p = .fault ∧ inFont a = true then .error (.fontWrite a)
  else .ok (s.setMem (s.mem.write a b))

/-- `MemWrite` of bytes at ascending addresses (43_index_memory_timer.md R108): the first access that fails raises, and
the bytes before it stay written. -/
def storeBytes (p : Config.FontWritePolicy) : List Byte → Nat → State → Result
  | [], _, s => .next s
  | b :: bs, a, s =>
    match memWrite p s a b with
    | .error f => .next (s.raise f)
    | .ok s' => storeBytes p bs (a + 1) s'

/-- `V[k] <- MemRead(I + k, 1)` for the `count` registers from `k` on, ascending (R111, R108): the first access that
fails raises, and the registers before it stay loaded. -/
def loadRegs : Nat → Nat → State → Result
  | 0, _, s => .next s
  | count + 1, k, s =>
    match memRead s (s.i.toNat + k) with
    | .error f => .next (s.raise f)
    | .ok b => loadRegs count (k + 1) (s.writeV (Fin.ofNat Config.numV k) b)

/-! ### Program counter (10_state.md R22) -/

/-- `PC + 2`. A sum that does not fit PC's bits is a free value: see notes/assumptions/5.md. -/
def pcPlus2 (pc : BitVec Config.pcWidth) : BitVec Config.pcWidth :=
  if pc.toNat + 2 < 2 ^ Config.pcWidth then pc + 2 else Config.pcBeyond (pc.toNat + 2)

/-- A skip: `if c then PC <- PC + 2` (41_control_flow.md R86). -/
def skipIf (c : Bool) (s : State) : State := if c then s.setPc (pcPlus2 s.pc) else s

/-- The two fetch reads of `Step`, big-endian (30_encoding.md R62, 20_memory.md R42). -/
def fetchWord (s : State) : Except Fault Word :=
  match memRead s s.pc.toNat with
  | .error f => .error f
  | .ok hi =>
    match memRead s (s.pc.toNat + 1) with
    | .error f => .error f
    | .ok lo => .ok (wordOfBytes hi lo)

/-- A `Step` or `Execute` has begun, so `Load` is no longer accepted (20_memory.md R40). -/
def State.begun (s : State) : State := s.setLoadOpen false

/-- `PC <- PC + 2` after a fetch (R62). -/
def State.advance (s : State) : State := s.setPc (pcPlus2 s.pc)

/-- The state with an instruction word where the next fetch reads it, high byte first; unchanged where the two bytes do
not exist: see notes/assumptions/18.md. -/
def State.placeWord (s : State) (w : Word) : State :=
  if s.pc.toNat + 1 < Config.memSize then s.setMem (s.mem.writeBytes s.pc.toNat (bytesOfWord w)) else s

/-! ### Call stack (10_state.md R21) -/

/-- `Push(v)`: the depth is checked before anything is written. -/
def push (s : State) (w : BitVec Config.pcWidth) : Except Fault State :=
  if h : s.sp.val < Config.stackDepth then
    .ok (s.setStack (s.stack.set s.sp.val w) ⟨s.sp.val + 1, by omega⟩)
  else .error (.stackOverflow s.sp.val)

/-- `Pop()`: the popped value and the state after. -/
def pop (s : State) : Except Fault (BitVec Config.pcWidth × State) :=
  if h : 0 < s.sp.val then
    .ok (s.stack[s.sp.val - 1], s.setStack s.stack ⟨s.sp.val - 1, by omega⟩)
  else .error (.stackUnderflow s.sp.val)

/-- The live entry at depth `k`, if there is one (R21, R32). -/
def liveEntry (s : State) (k : Nat) : Option (BitVec Config.pcWidth) :=
  if k < s.sp.val then s.stack[k]? else none

/-! ### Framebuffer (10_state.md R23) -/

/-- `Pix(x, y)`, true when on; false for a pixel that does not exist, which no rule reads. -/
def Framebuffer.pix (fb : Framebuffer) (x y : Nat) : Bool :=
  if h : x < Config.displayW ∧ y < Config.displayH then fb[y][x] else false

/-- `Pix(x, y) <- b`. -/
def Framebuffer.setPix (fb : Framebuffer) (x y : Nat) (b : Bool) : Framebuffer :=
  if h : x < Config.displayW ∧ y < Config.displayH then fb.set y (fb[y].set x b) else fb

/-- Every pixel off (40_display.md R68). -/
def Framebuffer.clear : Framebuffer := Vector.replicate Config.displayH (Vector.replicate Config.displayW false)

/-- `LAST_X` or `LAST_Y` of an axis of the given size (40_display.md R71). -/
def lastIndex (lastDrawn : Bool) (size : Nat) : Nat := if lastDrawn then size - 1 else size - 2

/-- The pixel part of R70's inner loop: `k` columns from `col` on of one sprite row. -/
def drawCols (lastX x0 py : Nat) (sprite : Byte) : Nat → Nat → State → State
  | 0, _, s => s
  | k + 1, col, s =>
    if lastX < x0 + col then s
    else
      let bit := sprite.getLsbD (7 - col)
      let on := s.fb.pix (x0 + col) py
      let s' := if bit && on then s.writeV regVF 1 else s
      drawCols lastX x0 py sprite k (col + 1) (s'.setFb (s'.fb.setPix (x0 + col) py (on ^^ bit)))

/-- R70's outer loop: `k` rows from `row` on. A row past the last is not read (R72); a read that fails raises, and what
the rows before it did stays. -/
def drawRows (lastX lastY x0 y0 : Nat) : Nat → Nat → State → Result
  | 0, _, s => .next s
  | k + 1, row, s =>
    if lastY < y0 + row then .next s
    else
      match memRead s (s.i.toNat + row) with
      | .error f => .next (s.raise f)
      | .ok sprite => drawRows lastX lastY x0 y0 k (row + 1) (drawCols lastX x0 (y0 + row) sprite 8 0 s)

/-! ### Random-byte source (10_state.md R27) -/

/-- `Rand()`: the host's next answer, and the state after it. With no answer queued it is a free value numbered by the
count of draws: see notes/assumptions/4.md. -/
def drawRand (s : State) : Byte × State :=
  match s.randQueue with
  | r :: rest => (r, s.setRand rest (s.randDrawn + 1))
  | [] => (Config.randByte s.randDrawn, s.setRand [] (s.randDrawn + 1))

/-! ### Delay timer (60_exceptions.md R120) -/

/-- `TickDelay`'s decrement, saturating at 0: see notes/assumptions/13.md. -/
def tickByte (dt : BitVec Config.dtWidth) : BitVec Config.dtWidth := if 0 < dt.toNat then dt - 1 else dt

end Sys2Proof.Machine
end

