-- ==== Sys2Proof/Machine/Flags.lean ====
section
/-! DEFINITION. The flag computations of 42_register_alu.md R88 and the order of the VF write (R89). -/

namespace Sys2Proof.Machine

/-- A flag as the byte VF receives. -/
def flagByte (f : Bool) : Byte := if f then 1 else 0

/-- Carry of `a + b`: the exact sum exceeds 255 (R88, R96). -/
def carryFlag (a b : Byte) : Bool := decide (255 < a.toNat + b.toNat)

/-- NOT borrow of `a - b`: `a ≥ b` (R88, R97, R99). -/
def notBorrowFlag (a b : Byte) : Bool := decide (b.toNat ≤ a.toNat)

/-- The bit a right shift by one shifts out, bit 0 (R98). -/
def shiftOutRight (a : Byte) : Bool := a.getLsbD 0

/-- The bit a left shift by one shifts out, bit 7 (R100). -/
def shiftOutLeft (a : Byte) : Bool := a.getLsbD 7

/-- The common part of `8xy4`..`8xyE`, for each value of `VF_WRITE_ORDER` (R89, 93_implementation_defined.md U6). -/
def writeFlagged (o : Config.VFWriteOrder) (result : Byte → Byte → Byte) (flag : Byte → Byte → Bool) (x y : RegIdx)
    (s : State) : State :=
  let f := flagByte (flag (s.readV x) (s.readV y))
  match o with
  | .flagLast => (s.writeV x (result (s.readV x) (s.readV y))).writeV regVF f
  | .resultLast => (s.writeV regVF f).writeV x (result (s.readV x) (s.readV y))
  | .literal =>
    let s' := s.writeV regVF f
    s'.writeV x (result (s'.readV x) (s'.readV y))

end Sys2Proof.Machine
end

