-- ==== Sys2Proof/Machine/Alu.lean ====
section
/-! DEFINITION. Register loads, arithmetic, logic, shifts and random (42_register_alu.md). -/

namespace Sys2Proof.Machine

/-- `6xkk` LD Vx, kk (R90). -/
def execLdImm (x : RegIdx) (kk : Byte) (s : State) : Result := .next (s.writeV x kk)

/-- `7xkk` ADD Vx, kk: modulo 256, no flag (R91). -/
def execAddImm (x : RegIdx) (kk : Byte) (s : State) : Result := .next (s.writeV x (s.readV x + kk))

/-- `8xy0` LD Vx, Vy (R92). -/
def execLdReg (x y : RegIdx) (s : State) : Result := .next (s.writeV x (s.readV y))

/-- `8xy1` OR Vx, Vy (R93). -/
def execOrReg (x y : RegIdx) (s : State) : Result := .next (s.writeV x (s.readV x ||| s.readV y))

/-- `8xy2` AND Vx, Vy (R94). -/
def execAndReg (x y : RegIdx) (s : State) : Result := .next (s.writeV x (s.readV x &&& s.readV y))

/-- `8xy3` XOR Vx, Vy (R95). -/
def execXorReg (x y : RegIdx) (s : State) : Result := .next (s.writeV x (s.readV x ^^^ s.readV y))

/-- `8xy4` ADD Vx, Vy: VF = carry (R96). -/
def execAddReg (x y : RegIdx) (s : State) : Result :=
  .next (writeFlagged Config.vfWriteOrder (fun a b => a + b) carryFlag x y s)

/-- `8xy5` SUB Vx, Vy: VF = NOT borrow (R97). -/
def execSub (x y : RegIdx) (s : State) : Result :=
  .next (writeFlagged Config.vfWriteOrder (fun a b => a - b) notBorrowFlag x y s)

/-- `8xy6` SHR Vx: VF = bit 0; the field `y` is not read (R98, 30_encoding.md R54). -/
def execShr (x _y : RegIdx) (s : State) : Result :=
  .next (writeFlagged Config.vfWriteOrder (fun a _ => a >>> 1) (fun a _ => shiftOutRight a) x x s)

/-- `8xy7` SUBN Vx, Vy: `Vy - Vx`, VF = NOT borrow (R99). -/
def execSubn (x y : RegIdx) (s : State) : Result :=
  .next (writeFlagged Config.vfWriteOrder (fun a b => b - a) (fun a b => notBorrowFlag b a) x y s)

/-- `8xyE` SHL Vx: VF = bit 7; the field `y` is not read (R100, 30_encoding.md R54). -/
def execShl (x _y : RegIdx) (s : State) : Result :=
  .next (writeFlagged Config.vfWriteOrder (fun a _ => a <<< 1) (fun a _ => shiftOutLeft a) x x s)

/-- `Cxkk` RND Vx, kk: one byte drawn, whatever `kk` is (R101). -/
def execRnd (x : RegIdx) (kk : Byte) (s : State) : Result :=
  .next ((drawRand s).2.writeV x ((drawRand s).1 &&& kk))

end Sys2Proof.Machine
end

