-- ==== Sys2Proof/Machine/Operands.lean ====
section
/-! DEFINITION. Operand forms and targets (30_encoding.md R53). -/

namespace Sys2Proof.Machine

/-- `nnn` as an absolute address, zero-extended to 16 bits (R53). -/
def absAddress (nnn : Addr12) : Word := nnn.zeroExtend 16

/-- The target of `Bnnn`: `nnn + V[0]`, which is at most 0x10FE and so exact in 16 bits (41_control_flow.md R87). -/
def jumpV0Target (nnn : Addr12) (s : State) : BitVec Config.pcWidth :=
  BitVec.ofNat Config.pcWidth (nnn.toNat + (s.readV 0).toNat)

/-- `(I + b) mod 2^16` (43_index_memory_timer.md R104). -/
def indexPlus (i : BitVec Config.iWidth) (b : Byte) : BitVec Config.iWidth := BitVec.ofNat Config.iWidth (i.toNat + b.toNat)

/-- `FONT_START_ADDRESS + 5 * b`, which is at most 0x54B and so exact in 16 bits (R105). -/
def glyphAddress (b : Byte) : BitVec Config.iWidth :=
  BitVec.ofNat Config.iWidth (Config.fontStart + Config.glyphBytes * b.toNat)

/-- The data address `I`, a natural number (R108). -/
def dataAddress (s : State) : Nat := s.i.toNat

/-- The start column `V[x] mod 64` (40_display.md R69). -/
def startCol (s : State) (x : RegIdx) : Nat := (s.readV x).toNat % Config.displayW

/-- The start row `V[y] mod 32` (40_display.md R69). -/
def startRow (s : State) (y : RegIdx) : Nat := (s.readV y).toNat % Config.displayH

/-- Hundreds, tens and ones of a byte (R109). -/
def bcdDigits (b : Byte) : List Byte :=
  [BitVec.ofNat 8 (b.toNat / 100), BitVec.ofNat 8 (b.toNat / 10 % 10), BitVec.ofNat 8 (b.toNat % 10)]

/-- `V[0] .. V[x]` in ascending order (R110). -/
def regBlock (s : State) (x : RegIdx) : List Byte := s.v.toList.take (x.val + 1)

end Sys2Proof.Machine
end

