-- ==== Sys2Proof/Machine/Control.lean ====
section
/-! DEFINITION. Control transfer instructions (41_control_flow.md); PC is already advanced when one runs under `Step`. -/

namespace Sys2Proof.Machine

/-- `00EE` RET: `PC <- Pop()` (R79). -/
def execRet (s : State) : Result :=
  match pop s with
  | .error f => .next (s.raise f)
  | .ok (target, s') => .next (s'.setPc target)

/-- `1nnn` JP nnn (R80). -/
def execJp (nnn : Addr12) (s : State) : Result := .next (s.setPc (absAddress nnn))

/-- `2nnn` CALL nnn: `Push(PC)`, then `PC <- nnn` (R81). -/
def execCall (nnn : Addr12) (s : State) : Result :=
  match push s s.pc with
  | .error f => .next (s.raise f)
  | .ok s' => .next (s'.setPc (absAddress nnn))

/-- `3xkk` SE Vx, kk (R82). -/
def execSeImm (x : RegIdx) (kk : Byte) (s : State) : Result := .next (skipIf (decide (s.readV x = kk)) s)

/-- `4xkk` SNE Vx, kk (R83). -/
def execSneImm (x : RegIdx) (kk : Byte) (s : State) : Result := .next (skipIf (decide (s.readV x ≠ kk)) s)

/-- `5xy0` SE Vx, Vy (R84). -/
def execSeReg (x y : RegIdx) (s : State) : Result := .next (skipIf (decide (s.readV x = s.readV y)) s)

/-- `9xy0` SNE Vx, Vy (R85). -/
def execSneReg (x y : RegIdx) (s : State) : Result := .next (skipIf (decide (s.readV x ≠ s.readV y)) s)

/-- `Bnnn` JP V0, nnn (R87). -/
def execJpV0 (nnn : Addr12) (s : State) : Result := .next (s.setPc (jumpV0Target nnn s))

end Sys2Proof.Machine
end

