-- ==== Sys2Proof/Machine/Display.lean ====
section
/-! DEFINITION. Display instructions (40_display.md). -/

namespace Sys2Proof.Machine

/-- `00E0` CLS: every pixel off (R68). -/
def execCls (s : State) : Result := .next (s.setFb Framebuffer.clear)

/-- `Dxyn` DRW Vx, Vy, n (R69..R72): the start coordinates are read, then VF is cleared, then the rows are drawn. -/
def execDrw (x y : RegIdx) (n : RowCount) (s : State) : Result :=
  drawRows (lastIndex Config.clipLastPixelDrawn Config.displayW) (lastIndex Config.clipLastPixelDrawn Config.displayH)
    (startCol s x) (startRow s y) n.val 0 (s.writeV regVF 0)

end Sys2Proof.Machine
end

