-- ==== Sys2Proof/Machine/IndexMemory.lean ====
section
/-! DEFINITION. Index register, delay timer and memory instructions (43_index_memory_timer.md). -/

namespace Sys2Proof.Machine

/-- `Annn` LD I, nnn (R103). -/
def execLdI (nnn : Addr12) (s : State) : Result := .next (s.setI (absAddress nnn))

/-- `Fx1E` ADD I, Vx: modulo 2^16, VF untouched (R104). -/
def execAddI (x : RegIdx) (s : State) : Result := .next (s.setI (indexPlus s.i (s.readV x)))

/-- `Fx29` LD F, Vx: no check of Vx (R105). -/
def execLdF (x : RegIdx) (s : State) : Result := .next (s.setI (glyphAddress (s.readV x)))

/-- `Fx07` LD Vx, DT (R106). -/
def execLdVxDt (x : RegIdx) (s : State) : Result := .next (s.writeV x s.dt)

/-- `Fx15` LD DT, Vx (R107). -/
def execLdDtVx (x : RegIdx) (s : State) : Result := .next (s.setDt (s.readV x))

/-- `Fx33` LD B, Vx: hundreds, tens, ones at I, I+1, I+2 (R109). -/
def execLdB (x : RegIdx) (s : State) : Result :=
  storeBytes Config.fontWritePolicy (bcdDigits (s.readV x)) (dataAddress s) s

/-- `Fx55` LD [I], Vx: V0..Vx at I, I+1, ... (R110). -/
def execLdMemVx (x : RegIdx) (s : State) : Result :=
  storeBytes Config.fontWritePolicy (regBlock s x) (dataAddress s) s

/-- `Fx65` LD Vx, [I]: V0..Vx from I, I+1, ... (R111). -/
def execLdVxMem (x : RegIdx) (s : State) : Result := loadRegs (x.val + 1) 0 s

end Sys2Proof.Machine
end

