-- ==== Sys2Proof/Machine/Cycle.lean ====
section
/-! DEFINITION. The fetch-decode-execute cycle (30_encoding.md R62, R63). -/

namespace Sys2Proof.Machine

/-- `Exec(Decode(w))`, `Decode` raising `UnsupportedInstruction(w)` (R59, R60; 60_exceptions.md R113). -/
def decodeExec (w : Word) (s : State) : Result :=
  match decode w with
  | none => .next (s.raise (.unsupportedInstruction w))
  | some i => exec i s

/-- `Step` of a running block (R62): fetch, advance, decode, execute. A fetch fault leaves PC at the fetch address. -/
def fetchDecodeExec (s : State) : Result :=
  match fetchWord s with
  | .error f => .next (s.begun.raise f)
  | .ok w => decodeExec w s.begun.advance

/-- A transaction that a `Faulted` block refuses, with no effect (10_state.md R26, 60_exceptions.md R118): the model
answers the latched fault and no next state (notes/assumptions/1.md). -/
def whenRunning (act : State → Result) (s : State) : Result :=
  match s.status with
  | .faulted f => .fault f
  | .running => act s

end Sys2Proof.Machine
end

