-- ==== Sys2Proof/Machine/Step.lean ====
section
/-! DEFINITION. `Step`, the machine's one step (30_encoding.md R62). -/

namespace Sys2Proof.Machine

/-- `Step` (R62). -/
def step (s : State) : Host.Outcome State Fault Refusal := whenRunning fetchDecodeExec s

/-- The state with an instruction, numbered as spec/opcode_table.json numbers its bits, stored big-endian where `step`
fetches next (notes/assumptions/17.md, notes/assumptions/18.md). -/
def State.withFetchWord (s : State) (nbits w : Nat) : State := s.placeWord (tableWord nbits w)

end Sys2Proof.Machine
end

