-- ==== Sys2Proof/Machine/Transactions.lean ====
section
/-! DEFINITION. The host's transactions other than `Step` (10_state.md R31, 60_exceptions.md R123). -/

namespace Sys2Proof.Machine

/-- `Execute(w)`: decode and execute `w` with no fetch and no advance (30_encoding.md R63). -/
def execute (w : Word) (s : State) : Result := whenRunning (fun t => decodeExec w t.begun) s

/-- `TickDelay` (60_exceptions.md R120). -/
def tickDelay (s : State) : Result := whenRunning (fun t => .next (t.setDt (tickByte t.dt))) s

/-- `Load` of a running block (20_memory.md R40, R41). -/
def loadImage (bytes : List Byte) (s : State) : Result :=
  if s.loadOpen then
    if imageWellFormed bytes then
      .next ((s.setMem (s.mem.writeBytes Config.programStart bytes)).setLoadOpen false)
    else .next (s.raise (.loadRejected bytes.length))
  else .refused .loadClosed

/-- `Load(bytes)`: accepted once, before the first `Step` or `Execute`, while `Running` (20_memory.md R40). -/
def load (bytes : List Byte) (s : State) : Result := whenRunning (loadImage bytes) s

/-- The transactions that may change the block after `Reset` (10_state.md R31). -/
inductive Transaction where
  | load (bytes : List Byte)
  | step
  | execute (w : Word)
  | tickDelay
  deriving DecidableEq, Repr

/-- One transaction. -/
def transact : Transaction → State → Result
  | .load bytes, s => load bytes s
  | .step, s => step s
  | .execute w, s => execute w s
  | .tickDelay, s => tickDelay s

/-- A schedule: the host's transactions in order, stopping at the first that is refused (60_exceptions.md R123, R124).
Any number of `tickDelay`s may stand between two `step`s (R120). -/
def runSchedule : List Transaction → State → Result
  | [], s => .next s
  | t :: ts, s =>
    match transact t s with
    | .next s' => runSchedule ts s'
    | .fault f => .fault f
    | .refused r => .refused r

/-- Fixed-cycle mode: `n` calls of `Step` with no `TickDelay` (60_exceptions.md R124). -/
def fixedCycles (n : Nat) : List Transaction := List.replicate n .step

/-- Continuous mode for `rounds` rounds: `Step` repeatedly, with a `TickDelay` after every `k`-th (60_exceptions.md R124);
the source gives no `k`. -/
def continuous (k rounds : Nat) : List Transaction :=
  (List.replicate rounds (fixedCycles k ++ [Transaction.tickDelay])).flatten

/-- `ReadPixel(x, y)`: `none` is the spec's refusal of a pixel that does not exist (40_display.md R75). -/
def readPixel (s : State) (x y : Nat) : Option Bool :=
  if x < Config.displayW ∧ y < Config.displayH then some (s.fb.pix x y) else none

/-- `Width` (40_display.md R75). -/
def width : Nat := Config.displayW

/-- `Height` (40_display.md R75). -/
def height : Nat := Config.displayH

/-- What `Inspect` can be asked for (10_state.md R32). -/
inductive Selector where
  | v (x : RegIdx)
  | i
  | pc
  | sp
  | stack (k : Nat)
  | dt
  | st
  | mem (addr : Nat)
  | pixel (x y : Nat)
  | status
  deriving DecidableEq, Repr

/-- What `Inspect` answers. -/
inductive Answer where
  | byte (b : Byte)
  | word (w : Word)
  | count (n : Nat)
  | pixel (on : Bool)
  | status (l : Status)
  deriving DecidableEq, Repr

/-- `Inspect(sel)`: reads and changes nothing, in every status; `none` is the spec's refusal of an address, pixel or dead
stack entry (10_state.md R32). -/
def inspect (s : State) : Selector → Option Answer
  | .v x => some (.byte (s.readV x))
  | .i => some (.word s.i)
  | .pc => some (.word s.pc)
  | .sp => some (.count s.sp.val)
  | .stack k => (liveEntry s k).map .word
  | .dt => some (.byte s.dt)
  | .st => some (.byte s.st)
  | .mem a => if a < Config.memSize then some (.byte (s.mem.read a)) else none
  | .pixel x y => (readPixel s x y).map .pixel
  | .status => some (.status s.status)

end Sys2Proof.Machine
end

