-- ==== Sys2Proof/Safety.lean ====
section
/-! DEFINITION. What counts as a safe run, the machine's invariants, and the frame predicates that statements use. -/

namespace Sys2Proof.Machine

/-! ### Safe runs (60_exceptions.md R118, R130) -/

/-- The block is `Running`: no fault has been raised. -/
abbrev State.isRunning (s : State) : Prop := s.status = .running

/-- A schedule that ends, from `s`, in a `Running` state `t`: the spec's successful end (R130). -/
def SafeRun (schedule : List Transaction) (s t : State) : Prop := runSchedule schedule s = .next t ∧ t.isRunning

/-- The states that the host's transactions reach from a reset block (10_state.md R31). -/
inductive Reachable : State → Prop where
  | reset (rand : List Byte) : Reachable (State.resetWith rand)
  | transact {s t : State} (tr : Transaction) : Reachable s → transact tr s = .next t → Reachable t

/-! ### Invariants -/

/-- Memory keeps its canonical form, and ST its reset value (10_state.md R24). -/
abbrev StoreInv (s : State) : Prop := s.mem.wf = true ∧ s.st = 0

/-- Bounds on PC and on the live return addresses, which `Step` keeps (10_state.md R22). -/
abbrev PcInv (s : State) : Prop :=
  s.pc.toNat ≤ 0x10FE ∧ ∀ k : Fin 16, k.val < s.sp.val → s.stack[k].toNat ≤ 0x1000

/-! ### Frames (00_scope.md R14) -/

/-- The pieces of state a rule may write. -/
inductive Part where
  | v (x : RegIdx)
  | i
  | pc
  | stack
  | dt
  | fb
  | mem
  | rand
  deriving DecidableEq, Repr

/-- The parts V0 .. V(count - 1). -/
def vBelow (count : Nat) : List Part := ((List.finRange 16).filter fun j => decide (j.val < count)).map Part.v

/-- Every byte of memory reads as before. -/
def KeepsMemory (s t : State) : Prop := ∀ a, t.mem.read a = s.mem.read a

/-- Every byte of memory outside `lo .. lo + len - 1` reads as before. -/
def KeepsMemoryOutside (lo len : Nat) (s t : State) : Prop := ∀ a, a < lo ∨ lo + len ≤ a → t.mem.read a = s.mem.read a

/-- Every pixel reads as before. -/
def KeepsDisplay (s t : State) : Prop := ∀ px py, px < 64 → py < 32 → t.fb.pix px py = s.fb.pix px py

/-- Everything but the parts named is the same in `t` as in `s`, the sound timer and the load window always among what is
kept; the status latch is said separately. -/
def KeepsAllBut (parts : List Part) (s t : State) : Prop :=
  (∀ x, Part.v x ∉ parts → t.readV x = s.readV x) ∧
  (Part.i ∉ parts → t.i = s.i) ∧
  (Part.pc ∉ parts → t.pc = s.pc) ∧
  (Part.stack ∉ parts → t.sp = s.sp ∧ t.stack = s.stack) ∧
  (Part.dt ∉ parts → t.dt = s.dt) ∧
  t.st = s.st ∧
  (Part.fb ∉ parts → KeepsDisplay s t) ∧
  (Part.mem ∉ parts → KeepsMemory s t) ∧
  (Part.rand ∉ parts → t.randQueue = s.randQueue ∧ t.randDrawn = s.randDrawn) ∧
  t.loadOpen = s.loadOpen

/-- An instruction's frame when it raises no fault: everything but the parts named, and the status latch, is kept. -/
def Frame (parts : List Part) (s t : State) : Prop := KeepsAllBut parts s t ∧ t.status = s.status

/-! ### What the rules say of an encoding and of a sprite -/

/-- The instruction's row of 30_encoding.md R56: its word matches the row, and decoding the word gives the instruction
back with its operands. -/
def EncodedAs (matchBits mask : Word) (i : Instr) : Prop := encode i &&& mask = matchBits ∧ decode (encode i) = some i

/-- Is pixel `(px, py)` covered by a 1-bit of the `n`-row sprite at `I`, drawn at `(x0, y0)`, most significant bit
leftmost (40_display.md R70)? -/
def spriteBit (s : State) (x0 y0 n px py : Nat) : Bool :=
  decide (x0 ≤ px) && decide (px < x0 + 8) && decide (y0 ≤ py) && decide (py < y0 + n) &&
    (s.mem.read (s.i.toNat + (py - y0))).getLsbD (7 - (px - x0))

/-- Every sprite row that lies on the display has its byte inside memory (40_display.md R72). -/
def SpriteReadable (s : State) (y0 n : Nat) : Prop := ∀ r, r < n → y0 + r < 32 → s.i.toNat + r < Config.memSize

/-! ### States that differ in what no instruction reads -/

/-- The two states agree on everything but stack entries at or above SP (10_state.md R21). -/
def SameButDeadStack (s s' : State) : Prop :=
  s' = s.setStack s'.stack s.sp ∧ ∀ k : Fin 16, k.val < s.sp.val → s'.stack[k] = s.stack[k]

/-- The state with another sound timer. -/
def withSt (b : BitVec Config.stWidth) (s : State) : State := { s with st := b }

/-- An answer with its next state mapped. -/
def mapNext (f : State → State) : Result → Result
  | .next s => .next (f s)
  | .fault r => .fault r
  | .refused r => .refused r

end Sys2Proof.Machine
end

