-- ==== Sys2Proof/Certificates/Slice0/Obligations.lean ====
section
/-! DEFINITION. The statements for the provers, each about the model as 00_scope.md .. 70_reset_and_hazards.md describe the
block. -/

open Sys2Proof Sys2Proof.Machine

/-! ### Encoding and decoding -/

/-- One word of each family, its digits as 30_encoding.md R52 and R56 give them, and one unsupported word of each
group. -/
def Obligations.SampleWordsDecode : Prop :=
  decode 0x00E0 = some .cls ∧ decode 0xD125 = some (.drw 1 2 5) ∧
  decode 0x00EE = some .ret ∧ decode 0x1ABC = some (.jp 0xABC) ∧ decode 0x2300 = some (.call 0x300) ∧
  decode 0x3342 = some (.seImm 3 0x42) ∧ decode 0xB300 = some (.jpV0 0x300) ∧
  decode 0x65EE = some (.ldImm 5 0xEE) ∧ decode 0x8124 = some (.addReg 1 2) ∧ decode 0x85F6 = some (.shr 5 15) ∧
  decode 0xC30F = some (.rnd 3 0x0F) ∧
  decode 0xA3D0 = some (.ldI 0x3D0) ∧ decode 0xF065 = some (.ldVxMem 0) ∧ decode 0xF355 = some (.ldMemVx 3) ∧
  decode 0x0000 = none ∧ decode 0x01E0 = none ∧ decode 0x5121 = none ∧ decode 0x8008 = none ∧ decode 0x9AB3 = none ∧
  decode 0xE09E = none ∧ decode 0xF018 = none

/-- 30_encoding.md R51: the six fields of a word, as numbers, and how they overlap. -/
def Obligations.WordFields : Prop :=
  ∀ w : Word,
    (fieldOp w).toNat = w.toNat / 4096 ∧ (fieldX w).val = w.toNat / 256 % 16 ∧ (fieldY w).val = w.toNat / 16 % 16 ∧
    (fieldN w).val = w.toNat % 16 ∧ (fieldKK w).toNat = w.toNat % 256 ∧ (fieldNNN w).toNat = w.toNat % 4096 ∧
    (fieldKK w).toNat = 16 * (fieldY w).val + (fieldN w).val ∧
    (fieldNNN w).toNat = 256 * (fieldX w).val + 16 * (fieldY w).val + (fieldN w).val

/-- Encoding an instruction and decoding the word gives the instruction back, every operand at every value
(30_encoding.md sections 1 and 2). -/
def Obligations.DecodeInvertsEncode : Prop := ∀ i : Instr, decode (encode i) = some i

/-- A word that decodes is the word its instruction encodes to: no bit of a word is dropped, the don't-care digit of
`8xy6` and `8xyE` included, which the model keeps as an operand (notes/assumptions/15.md). -/
def Obligations.EncodeInvertsDecode : Prop := ∀ (w : Word) (i : Instr), decode w = some i → encode i = w

/-- 30_encoding.md R57: the opcode map by opcode nibble, with the fields each instruction takes. -/
def Obligations.OpcodeMapByNibble : Prop :=
  ∀ w : Word,
    (fieldOp w = 0x0 → decode w = if w = 0x00E0 then some .cls else if w = 0x00EE then some .ret else none) ∧
    (fieldOp w = 0x1 → decode w = some (.jp (fieldNNN w))) ∧
    (fieldOp w = 0x2 → decode w = some (.call (fieldNNN w))) ∧
    (fieldOp w = 0xA → decode w = some (.ldI (fieldNNN w))) ∧
    (fieldOp w = 0xB → decode w = some (.jpV0 (fieldNNN w))) ∧
    (fieldOp w = 0x3 → decode w = some (.seImm (fieldX w) (fieldKK w))) ∧
    (fieldOp w = 0x4 → decode w = some (.sneImm (fieldX w) (fieldKK w))) ∧
    (fieldOp w = 0x6 → decode w = some (.ldImm (fieldX w) (fieldKK w))) ∧
    (fieldOp w = 0x7 → decode w = some (.addImm (fieldX w) (fieldKK w))) ∧
    (fieldOp w = 0xC → decode w = some (.rnd (fieldX w) (fieldKK w))) ∧
    (fieldOp w = 0x5 → decode w = if fieldN w = 0 then some (.seReg (fieldX w) (fieldY w)) else none) ∧
    (fieldOp w = 0x9 → decode w = if fieldN w = 0 then some (.sneReg (fieldX w) (fieldY w)) else none) ∧
    (fieldOp w = 0x8 → decode w =
      if fieldN w = 0x0 then some (.ldReg (fieldX w) (fieldY w))
      else if fieldN w = 0x1 then some (.orReg (fieldX w) (fieldY w))
      else if fieldN w = 0x2 then some (.andReg (fieldX w) (fieldY w))
      else if fieldN w = 0x3 then some (.xorReg (fieldX w) (fieldY w))
      else if fieldN w = 0x4 then some (.addReg (fieldX w) (fieldY w))
      else if fieldN w = 0x5 then some (.sub (fieldX w) (fieldY w))
      else if fieldN w = 0x6 then some (.shr (fieldX w) (fieldY w))
      else if fieldN w = 0x7 then some (.subn (fieldX w) (fieldY w))
      else if fieldN w = 0xE then some (.shl (fieldX w) (fieldY w)) else none) ∧
    (fieldOp w = 0xD → decode w = some (.drw (fieldX w) (fieldY w) (fieldN w))) ∧
    (fieldOp w = 0xE → decode w = none) ∧
    (fieldOp w = 0xF → decode w =
      if fieldKK w = 0x07 then some (.ldVxDt (fieldX w))
      else if fieldKK w = 0x15 then some (.ldDtVx (fieldX w))
      else if fieldKK w = 0x1E then some (.addI (fieldX w))
      else if fieldKK w = 0x29 then some (.ldF (fieldX w))
      else if fieldKK w = 0x33 then some (.ldB (fieldX w))
      else if fieldKK w = 0x55 then some (.ldMemVx (fieldX w))
      else if fieldKK w = 0x65 then some (.ldVxMem (fieldX w)) else none)

/-- "At most one row matches any word" (a derived clause of 30_encoding.md R59). -/
def Obligations.OpcodeRowsDisjoint : Prop :=
  opcodeTable.Pairwise fun r r' => ∀ w : Word, ¬ (r.accepts w = true ∧ r'.accepts w = true)

/-! ### The cycle -/

/-- A step of a running block runs the instruction that the two bytes at PC decode to, high byte first, on the state with
PC past the word (30_encoding.md section 3). The step also closes the load window, the model's own bit
(notes/assumptions/7.md). -/
def Obligations.StepRunsDecodedInstruction : Prop :=
  ∀ (s : State) (i : Instr), s.isRunning → s.pc.toNat + 1 < 4096 →
    decode (wordOfBytes (s.mem.read s.pc.toNat) (s.mem.read (s.pc.toNat + 1))) = some i →
    step s = exec i ((s.setLoadOpen false).setPc (s.pc + 2))

/-- The faults `Step` itself raises, in the order of 60_exceptions.md R119, each latched in the next state: a fetch fault
leaves PC at the fetch address, an unsupported word leaves it past the word. The latched next state and the load window's bit
are the model's (notes/assumptions/1.md, notes/assumptions/7.md). -/
def Obligations.StepFetchAndDecodeFaults : Prop :=
  ∀ s : State, s.isRunning →
    (4096 ≤ s.pc.toNat → step s = .next ((s.setLoadOpen false).raise (.memoryOutOfRange s.pc.toNat))) ∧
    (s.pc.toNat = 0xFFF → step s = .next ((s.setLoadOpen false).raise (.memoryOutOfRange 0x1000))) ∧
    (s.pc.toNat + 1 < 4096 →
      decode (wordOfBytes (s.mem.read s.pc.toNat) (s.mem.read (s.pc.toNat + 1))) = none →
      step s = .next (((s.setLoadOpen false).setPc (s.pc + 2)).raise
        (.unsupportedInstruction (wordOfBytes (s.mem.read s.pc.toNat) (s.mem.read (s.pc.toNat + 1))))))

/-- `Execute(w)` decodes and executes with no fetch and no advance (30_encoding.md section 3, decision D24). It also closes
the load window (20_memory.md section 3), which the model holds as a bit of its own (notes/assumptions/7.md), and latches a
fault in the next state, the model's reading (notes/assumptions/1.md). -/
def Obligations.ExecuteWithoutFetch : Prop :=
  ∀ (w : Word) (s : State), s.isRunning →
    (∀ i, decode w = some i → execute w s = exec i (s.setLoadOpen false)) ∧
    (decode w = none → execute w s = .next ((s.setLoadOpen false).raise (.unsupportedInstruction w)))

/-- A word placed where `step` fetches is what the fetch reads (the host's interface, notes/assumptions/17.md). -/
def Obligations.PlacedWordIsFetched : Prop :=
  ∀ (s : State) (w : Nat), s.mem.wf = true → s.pc.toNat + 1 < 4096 →
    fetchWord (s.withFetchWord 16 w) = .ok (BitVec.ofNat 16 w)

/-! ### Faults -/

/-- A faulted block refuses `Load`, `Step`, `Execute` and `TickDelay`, the four transactions that could change it (the read
ports still answer, see `ReadPortsAnswerWhatExists`); the model's answer is the latched fault and no next state
(notes/assumptions/1.md; 60_exceptions.md section 2). -/
def Obligations.FaultedBlockStaysFaulted : Prop :=
  ∀ (f : Fault) (tr : Transaction) (s : State), s.status = .faulted f → transact tr s = .fault f

/-- Every instruction answers a next state, and the only faults an instruction raises are those of 60_exceptions.md
R114, R115 and R116, by the instructions named there. That `Fx33` and `Fx55` never raise `FontWrite` is the choice
`FONT_WRITE_POLICY` = store of this hardware, the spec's decision D18 (notes/assumptions/12.md). -/
def Obligations.InstructionFaultKinds : Prop :=
  ∀ (i : Instr) (s : State), ∃ t, exec i s = .next t ∧
    (t.status = s.status ∨
      (i = .ret ∧ t.status = .faulted (.stackUnderflow 0)) ∨
      ((∃ nnn, i = .call nnn) ∧ t.status = .faulted (.stackOverflow 16)) ∨
      ((∃ x y n, i = .drw x y n) ∨ (∃ x, i = .ldB x ∨ i = .ldMemVx x ∨ i = .ldVxMem x)) ∧
        ∃ a, 0xFFF < a ∧ t.status = .faulted (.memoryOutOfRange a))

/-- 60_exceptions.md R116: a memory access raises `MemoryOutOfRange(addr)` exactly above 0xFFF, and the only accesses that
raise it are the fetch's at PC and PC+1, `Dxyn`'s at I + row, `Fx33`'s at I .. I+2, and those of `Fx55` and `Fx65` at
I .. I+x. -/
def Obligations.MemoryOutOfRangeRaisers : Prop :=
  (∀ s a, memRead s a = .error (.memoryOutOfRange a) ↔ 0xFFF < a) ∧
  (∀ p s a b, memWrite p s a b = .error (.memoryOutOfRange a) ↔ 0xFFF < a) ∧
  (∀ s a, fetchWord s = .error (.memoryOutOfRange a) → 0xFFF < a ∧ (a = s.pc.toNat ∨ a = s.pc.toNat + 1)) ∧
  (∀ i s t a, s.isRunning → exec i s = .next t → t.status = .faulted (.memoryOutOfRange a) →
    0xFFF < a ∧
    ((∃ x y n, i = .drw x y n ∧ ∃ r, r < n.val ∧ a = s.i.toNat + r) ∨
      (∃ x, i = .ldB x ∧ ∃ k, k < 3 ∧ a = s.i.toNat + k) ∨
      (∃ x, (i = .ldMemVx x ∨ i = .ldVxMem x) ∧ ∃ k, k ≤ x.val ∧ a = s.i.toNat + k)))

/-! ### Control transfer -/

/-- `00EE` pops the return address, or underflows on an empty stack (41_control_flow.md section 1; 60_exceptions.md section
1; 10_state.md section 2). That the popped entry, which is then dead, keeps what it held is the model's choice
(notes/assumptions/3.md). -/
def Obligations.ReturnPopsOrUnderflows : Prop :=
  EncodedAs 0x00EE 0xFFFF .ret ∧
  ∀ s : State,
    (∀ h : 0 < s.sp.val, ∃ t, exec .ret s = .next t ∧ t.pc = s.stack[s.sp.val - 1] ∧ t.sp.val = s.sp.val - 1 ∧
      t.stack = s.stack ∧ Frame [.pc, .stack] s t) ∧
    (s.sp.val = 0 → ∃ t, exec .ret s = .next t ∧ t.status = .faulted (.stackUnderflow 0) ∧ KeepsAllBut [] s t)

/-- 41_control_flow.md R80. -/
def Obligations.JumpSetsPc : Prop :=
  ∀ (nnn : Addr12) (s : State), EncodedAs 0x1000 0xF000 (.jp nnn) ∧
    ∃ t, exec (.jp nnn) s = .next t ∧ t.pc.toNat = nnn.toNat ∧ Frame [.pc] s t

/-- 41_control_flow.md R81. -/
def Obligations.CallPushesOrOverflows : Prop :=
  ∀ (nnn : Addr12) (s : State), EncodedAs 0x2000 0xF000 (.call nnn) ∧
    (∀ h : s.sp.val < 16, ∃ t, exec (.call nnn) s = .next t ∧ t.pc.toNat = nnn.toNat ∧ t.sp.val = s.sp.val + 1 ∧
      t.stack[s.sp.val] = s.pc ∧ (∀ k : Fin 16, k.val ≠ s.sp.val → t.stack[k] = s.stack[k]) ∧
      Frame [.pc, .stack] s t) ∧
    (s.sp.val = 16 → ∃ t, exec (.call nnn) s = .next t ∧ t.status = .faulted (.stackOverflow 16) ∧ KeepsAllBut [] s t)

/-- 41_control_flow.md R82 and R83. The sum PC + 2 is a free value where it does not fit 16 bits
(notes/assumptions/5.md), and the statement says nothing of it. -/
def Obligations.SkipOnByte : Prop :=
  ∀ (x : RegIdx) (kk : Byte) (s : State),
    EncodedAs 0x3000 0xF000 (.seImm x kk) ∧ EncodedAs 0x4000 0xF000 (.sneImm x kk) ∧
    (∃ t, exec (.seImm x kk) s = .next t ∧ Frame [.pc] s t ∧
      (s.readV x ≠ kk → t.pc = s.pc) ∧
      (s.readV x = kk → s.pc.toNat + 2 < 65536 → t.pc.toNat = s.pc.toNat + 2)) ∧
    (∃ t, exec (.sneImm x kk) s = .next t ∧ Frame [.pc] s t ∧
      (s.readV x = kk → t.pc = s.pc) ∧
      (s.readV x ≠ kk → s.pc.toNat + 2 < 65536 → t.pc.toNat = s.pc.toNat + 2))

/-- 41_control_flow.md R84 and R85, the words with a last digit other than 0 being unsupported. The sum PC + 2 is a free
value where it does not fit 16 bits (notes/assumptions/5.md), and the statement says nothing of it. -/
def Obligations.SkipOnRegister : Prop :=
  ∀ (x y : RegIdx) (s : State),
    EncodedAs 0x5000 0xF00F (.seReg x y) ∧ EncodedAs 0x9000 0xF00F (.sneReg x y) ∧
    (∀ n : Nibble, n ≠ 0 → decode (ofNibbles 0x5 (nibbleOf x) (nibbleOf y) n) = none ∧
      decode (ofNibbles 0x9 (nibbleOf x) (nibbleOf y) n) = none) ∧
    (∃ t, exec (.seReg x y) s = .next t ∧ Frame [.pc] s t ∧
      (s.readV x ≠ s.readV y → t.pc = s.pc) ∧
      (s.readV x = s.readV y → s.pc.toNat + 2 < 65536 → t.pc.toNat = s.pc.toNat + 2)) ∧
    (∃ t, exec (.sneReg x y) s = .next t ∧ Frame [.pc] s t ∧
      (s.readV x = s.readV y → t.pc = s.pc) ∧
      (s.readV x ≠ s.readV y → s.pc.toNat + 2 < 65536 → t.pc.toNat = s.pc.toNat + 2))

/-- `Bnnn`: the exact sum, unmasked (41_control_flow.md section 3, the spec's decision D5). -/
def Obligations.JumpPlusV0Unmasked : Prop :=
  ∀ (nnn : Addr12) (s : State),
    ∃ t, exec (.jpV0 nnn) s = .next t ∧ t.pc.toNat = nnn.toNat + (s.readV 0).toNat ∧ Frame [.pc] s t

/-! ### Register loads, arithmetic, logic, shifts, random -/

/-- 42_register_alu.md R90 and R91: VF is written only when x = F, then as data. -/
def Obligations.LoadAndAddByte : Prop :=
  ∀ (x : RegIdx) (kk : Byte) (s : State),
    EncodedAs 0x6000 0xF000 (.ldImm x kk) ∧ EncodedAs 0x7000 0xF000 (.addImm x kk) ∧
    (∃ t, exec (.ldImm x kk) s = .next t ∧ t.readV x = kk ∧ Frame [.v x] s t) ∧
    (∃ t, exec (.addImm x kk) s = .next t ∧ (t.readV x).toNat = ((s.readV x).toNat + kk.toNat) % 256 ∧
      Frame [.v x] s t)

/-- `8xy0` .. `8xy3` (42_register_alu.md section 3): no flag is written. That `8xy1` does not reset VF is a clause the spec
derives from its frame rule. -/
def Obligations.MoveAndLogic : Prop :=
  ∀ (x y : RegIdx) (s : State),
    EncodedAs 0x8000 0xF00F (.ldReg x y) ∧ EncodedAs 0x8001 0xF00F (.orReg x y) ∧
    EncodedAs 0x8002 0xF00F (.andReg x y) ∧ EncodedAs 0x8003 0xF00F (.xorReg x y) ∧
    (∃ t, exec (.ldReg x y) s = .next t ∧ t.readV x = s.readV y ∧ Frame [.v x] s t) ∧
    (∃ t, exec (.orReg x y) s = .next t ∧ Frame [.v x] s t ∧
      ∀ k, (t.readV x).getLsbD k = ((s.readV x).getLsbD k || (s.readV y).getLsbD k)) ∧
    (∃ t, exec (.andReg x y) s = .next t ∧ Frame [.v x] s t ∧
      ∀ k, (t.readV x).getLsbD k = ((s.readV x).getLsbD k && (s.readV y).getLsbD k)) ∧
    (∃ t, exec (.xorReg x y) s = .next t ∧ Frame [.v x] s t ∧
      ∀ k, (t.readV x).getLsbD k = ((s.readV x).getLsbD k ^^ (s.readV y).getLsbD k))

/-- `8xy4`: sum modulo 256, VF = carry; when x = F the flag stays (42_register_alu.md section 3; the order of the two
writes is the spec's decision D9, notes/assumptions/10.md). -/
def Obligations.AddSetsCarry : Prop :=
  ∀ (x y : RegIdx) (s : State), ∃ t, exec (.addReg x y) s = .next t ∧
    (x ≠ 15 → (t.readV x).toNat = ((s.readV x).toNat + (s.readV y).toNat) % 256) ∧
    (t.readV 15 = if 255 < (s.readV x).toNat + (s.readV y).toNat then 1 else 0) ∧
    Frame [.v x, .v 15] s t

/-- `8xy5` and `8xy7`: difference modulo 256, VF = NOT borrow; when x = F the flag stays (42_register_alu.md section 3;
decision D9, notes/assumptions/10.md). -/
def Obligations.SubtractSetsNotBorrow : Prop :=
  ∀ (x y : RegIdx) (s : State),
    (∃ t, exec (.sub x y) s = .next t ∧
      (x ≠ 15 → (t.readV x).toNat = (256 + (s.readV x).toNat - (s.readV y).toNat) % 256) ∧
      (t.readV 15 = if (s.readV y).toNat ≤ (s.readV x).toNat then 1 else 0) ∧ Frame [.v x, .v 15] s t) ∧
    (∃ t, exec (.subn x y) s = .next t ∧
      (x ≠ 15 → (t.readV x).toNat = (256 + (s.readV y).toNat - (s.readV x).toNat) % 256) ∧
      (t.readV 15 = if (s.readV x).toNat ≤ (s.readV y).toNat then 1 else 0) ∧ Frame [.v x, .v 15] s t)

/-- `8xy6` and `8xyE`: logical shift by one, VF = the bit shifted out; when x = F the flag stays (42_register_alu.md
section 3; decision D9, notes/assumptions/10.md). -/
def Obligations.ShiftSetsBitShiftedOut : Prop :=
  ∀ (x y : RegIdx) (s : State),
    (∃ t, exec (.shr x y) s = .next t ∧ (x ≠ 15 → (t.readV x).toNat = (s.readV x).toNat / 2) ∧
      (t.readV 15).toNat = (s.readV x).toNat % 2 ∧ Frame [.v x, .v 15] s t) ∧
    (∃ t, exec (.shl x y) s = .next t ∧ (x ≠ 15 → (t.readV x).toNat = 2 * (s.readV x).toNat % 256) ∧
      (t.readV 15).toNat = (s.readV x).toNat / 128 ∧ Frame [.v x, .v 15] s t)

/-- The field y of `8xy6` and `8xyE` selects nothing (30_encoding.md section 1, decision D8). -/
def Obligations.ShiftIgnoresY : Prop :=
  ∀ (x y y' : RegIdx) (s : State), exec (.shr x y) s = exec (.shr x y') s ∧ exec (.shl x y) s = exec (.shl x y') s

/-- "When x ≠ F and y ≠ F, every order gives the same result" (a derived clause of 42_register_alu.md R89), for any
result and flag function. -/
def Obligations.FlagOrderMattersOnlyForVF : Prop :=
  ∀ (o o' : Config.VFWriteOrder) (res : Byte → Byte → Byte) (fl : Byte → Byte → Bool) (x y : RegIdx) (s : State),
    x ≠ 15 → y ≠ 15 → writeFlagged o res fl x y s = writeFlagged o' res fl x y s

/-- `Cxkk` with any byte the host answers: exactly that byte is consumed, and the result is it AND kk
(42_register_alu.md section 4, decision D16). With no answer queued the byte is a free value, the model's choice of
notes/assumptions/4.md, and the statement holds for every value of it. -/
def Obligations.RandomByteMasked : Prop :=
  ∀ (x : RegIdx) (kk : Byte) (s : State),
    (∀ r rest, s.randQueue = r :: rest → ∃ t, exec (.rnd x kk) s = .next t ∧ t.readV x = r &&& kk ∧
      t.randQueue = rest ∧ t.randDrawn = s.randDrawn + 1 ∧ Frame [.v x, .rand] s t) ∧
    (s.randQueue = [] → ∃ t r, exec (.rnd x kk) s = .next t ∧ t.readV x = r &&& kk ∧
      t.randQueue = [] ∧ t.randDrawn = s.randDrawn + 1 ∧ Frame [.v x, .rand] s t)

/-! ### Index register, delay timer, memory -/

/-- 43_index_memory_timer.md R103. -/
def Obligations.LoadIndexAddress : Prop :=
  ∀ (nnn : Addr12) (s : State), EncodedAs 0xA000 0xF000 (.ldI nnn) ∧
    ∃ t, exec (.ldI nnn) s = .next t ∧ t.i.toNat = nnn.toNat ∧ Frame [.i] s t

/-- `Fx1E` modulo 2^16 with VF untouched, and `Fx29` with no check of Vx (43_index_memory_timer.md section 1; the wrap is
the spec's decision D6, notes/assumptions/14.md, and the font's place its decision D2, notes/assumptions/8.md). -/
def Obligations.AddIndexAndGlyphAddress : Prop :=
  ∀ (x : RegIdx) (s : State),
    (∃ t, exec (.addI x) s = .next t ∧ t.i.toNat = (s.i.toNat + (s.readV x).toNat) % 65536 ∧ Frame [.i] s t) ∧
    (∃ t, exec (.ldF x) s = .next t ∧ t.i.toNat = 0x050 + 5 * (s.readV x).toNat ∧ Frame [.i] s t)

/-- 43_index_memory_timer.md R106 and R107; the frames say that ST is not touched. -/
def Obligations.DelayTimerMoves : Prop :=
  ∀ (x : RegIdx) (s : State),
    EncodedAs 0xF007 0xF0FF (.ldVxDt x) ∧ EncodedAs 0xF015 0xF0FF (.ldDtVx x) ∧
    (∃ t, exec (.ldVxDt x) s = .next t ∧ t.readV x = s.dt ∧ Frame [.v x] s t) ∧
    (∃ t, exec (.ldDtVx x) s = .next t ∧ t.dt = s.readV x ∧ Frame [.dt] s t)

/-- `Fx33` on a canonical memory (the form is the model's, notes/assumptions/9.md): the three decimal digits at I, I+1, I+2;
a digit whose address exceeds 0xFFF raises, and the digits before it stay (43_index_memory_timer.md section 3; decisions
D13, D26). That the digits are stored in the font region too is this hardware's `FONT_WRITE_POLICY` = store, the spec's
decision D18 (notes/assumptions/12.md). Under the policy `fault`, which this hardware does not take, the first digit in the
font region raises `FontWrite` and the digits before it stay, the reading of R39 that notes/assumptions/12.md names. -/
def Obligations.BcdStoresDigits : Prop :=
  ∀ (x : RegIdx) (s : State), EncodedAs 0xF033 0xF0FF (.ldB x) ∧ (s.mem.wf = true →
    (s.i.toNat + 2 ≤ 0xFFF → ∃ t, exec (.ldB x) s = .next t ∧
      (t.mem.read s.i.toNat).toNat = (s.readV x).toNat / 100 ∧
      (t.mem.read (s.i.toNat + 1)).toNat = (s.readV x).toNat / 10 % 10 ∧
      (t.mem.read (s.i.toNat + 2)).toNat = (s.readV x).toNat % 10 ∧
      KeepsMemoryOutside s.i.toNat 3 s t ∧ Frame [.mem] s t) ∧
    (∀ k, k < 3 → 0xFFF < s.i.toNat + k → (∀ j, j < k → s.i.toNat + j ≤ 0xFFF) → ∃ t, exec (.ldB x) s = .next t ∧
      t.status = .faulted (.memoryOutOfRange (s.i.toNat + k)) ∧
      (0 < k → (t.mem.read s.i.toNat).toNat = (s.readV x).toNat / 100) ∧
      (1 < k → (t.mem.read (s.i.toNat + 1)).toNat = (s.readV x).toNat / 10 % 10) ∧
      KeepsMemoryOutside s.i.toNat k s t ∧ KeepsAllBut [.mem] s t) ∧
    (∀ k, k < 3 → 0x050 ≤ s.i.toNat + k → s.i.toNat + k ≤ 0x09F → (∀ j, j < k → s.i.toNat + j < 0x050) →
      ∃ t, storeBytes .fault (bcdDigits (s.readV x)) (dataAddress s) s = .next t ∧
        t.status = .faulted (.fontWrite (s.i.toNat + k)) ∧
        (0 < k → (t.mem.read s.i.toNat).toNat = (s.readV x).toNat / 100) ∧
        (1 < k → (t.mem.read (s.i.toNat + 1)).toNat = (s.readV x).toNat / 10 % 10) ∧
        KeepsMemoryOutside s.i.toNat k s t ∧ KeepsAllBut [.mem] s t))

/-- `Fx55` with every address inside memory: V0..Vx at I .. I+x, I unchanged (43_index_memory_timer.md section 3, decision
D28). That the store succeeds in the font region too is this hardware's `FONT_WRITE_POLICY` = store, the spec's decision
D18 (notes/assumptions/12.md). -/
def Obligations.StoreRegisterBlock : Prop :=
  ∀ (x : RegIdx) (s : State), s.mem.wf = true → s.i.toNat + x.val ≤ 0xFFF → ∃ t, exec (.ldMemVx x) s = .next t ∧
    (∀ j : RegIdx, j.val ≤ x.val → t.mem.read (s.i.toNat + j.val) = s.readV j) ∧
    KeepsMemoryOutside s.i.toNat (x.val + 1) s t ∧ Frame [.mem] s t

/-- `Fx65` with every address inside memory: V0..Vx from I .. I+x, the other registers and I unchanged
(43_index_memory_timer.md section 3, decision D28). -/
def Obligations.LoadRegisterBlock : Prop :=
  ∀ (x : RegIdx) (s : State), s.i.toNat + x.val ≤ 0xFFF → ∃ t, exec (.ldVxMem x) s = .next t ∧
    (∀ j : RegIdx, j.val ≤ x.val → t.readV j = s.mem.read (s.i.toNat + j.val)) ∧
    Frame (vBelow (x.val + 1)) s t

/-- `Fx55` and `Fx65` whose k-th access is the first above 0xFFF: the k accesses before it are made and stay, the latch
takes `MemoryOutOfRange(I + k)`, and nothing else changes (43_index_memory_timer.md section 3, decisions D13, D26). -/
def Obligations.RegisterBlockFaultKeepsPrefix : Prop :=
  ∀ (x : RegIdx) (k : Nat) (s : State), s.mem.wf = true → k ≤ x.val → 0xFFF < s.i.toNat + k →
    (∀ j, j < k → s.i.toNat + j ≤ 0xFFF) →
    (∃ t, exec (.ldMemVx x) s = .next t ∧ t.status = .faulted (.memoryOutOfRange (s.i.toNat + k)) ∧
      (∀ j : RegIdx, j.val < k → t.mem.read (s.i.toNat + j.val) = s.readV j) ∧
      KeepsMemoryOutside s.i.toNat k s t ∧ KeepsAllBut [.mem] s t) ∧
    (∃ t, exec (.ldVxMem x) s = .next t ∧ t.status = .faulted (.memoryOutOfRange (s.i.toNat + k)) ∧
      (∀ j : RegIdx, j.val < k → t.readV j = s.mem.read (s.i.toNat + j.val)) ∧
      KeepsAllBut (vBelow k) s t)

/-- The round-trip law of 43_index_memory_timer.md section 3: whatever happens to the other state after an `Fx55`, an
`Fx65` from the same memory and I loads V0..Vx as they were stored. In the font region the law needs this hardware's
`FONT_WRITE_POLICY` = store, the spec's decision D18 (notes/assumptions/12.md). -/
def Obligations.StoreThenLoadRoundTrip : Prop :=
  ∀ (x : RegIdx) (s : State), s.mem.wf = true → s.i.toNat + x.val ≤ 0xFFF →
    ∃ t, exec (.ldMemVx x) s = .next t ∧ ∀ t' : State, t'.mem = t.mem → t'.i = t.i →
      ∃ u, exec (.ldVxMem x) t' = .next u ∧ ∀ j : RegIdx, j.val ≤ x.val → u.readV j = s.readV j

/-- Self-modifying code (20_memory.md section 5, decision D19): a byte that an `Fx55` or an `Fx33` stores at PC or at PC+1 is
what the next fetch reads there, and a byte of the word outside the stored ones is fetched as it was. In the font region
this needs this hardware's `FONT_WRITE_POLICY` = store, the spec's decision D18 (notes/assumptions/12.md). -/
def Obligations.StoredCodeIsFetched : Prop :=
  ∀ (x : RegIdx) (s : State), s.mem.wf = true → s.pc.toNat + 1 ≤ 0xFFF →
    (s.i.toNat + x.val ≤ 0xFFF → ∃ t w, exec (.ldMemVx x) s = .next t ∧ t.pc = s.pc ∧ fetchWord t = .ok w ∧
      (∀ j : RegIdx, j.val ≤ x.val → s.i.toNat + j.val = s.pc.toNat → hiByte w = s.readV j) ∧
      (∀ j : RegIdx, j.val ≤ x.val → s.i.toNat + j.val = s.pc.toNat + 1 → loByte w = s.readV j) ∧
      (s.pc.toNat < s.i.toNat ∨ s.i.toNat + x.val < s.pc.toNat → hiByte w = s.mem.read s.pc.toNat) ∧
      (s.pc.toNat + 1 < s.i.toNat ∨ s.i.toNat + x.val < s.pc.toNat + 1 → loByte w = s.mem.read (s.pc.toNat + 1))) ∧
    (s.i.toNat + 2 ≤ 0xFFF → ∃ t w, exec (.ldB x) s = .next t ∧ t.pc = s.pc ∧ fetchWord t = .ok w ∧
      (∀ k d, (k = 0 ∧ d = (s.readV x).toNat / 100) ∨ (k = 1 ∧ d = (s.readV x).toNat / 10 % 10) ∨
          (k = 2 ∧ d = (s.readV x).toNat % 10) →
        (s.i.toNat + k = s.pc.toNat → (hiByte w).toNat = d) ∧
        (s.i.toNat + k = s.pc.toNat + 1 → (loByte w).toNat = d)) ∧
      (s.pc.toNat < s.i.toNat ∨ s.i.toNat + 2 < s.pc.toNat → hiByte w = s.mem.read s.pc.toNat) ∧
      (s.pc.toNat + 1 < s.i.toNat ∨ s.i.toNat + 2 < s.pc.toNat + 1 → loByte w = s.mem.read (s.pc.toNat + 1)))

/-! ### Display -/

/-- 40_display.md R68. -/
def Obligations.ClearTurnsEveryPixelOff : Prop :=
  EncodedAs 0x00E0 0xFFFF .cls ∧
  ∀ s : State, ∃ t, exec .cls s = .next t ∧ (∀ px py, px < 64 → py < 32 → t.fb.pix px py = false) ∧ Frame [.fb] s t

/-- `Dxyn` in closed form: every pixel is XORed with the clipped sprite, and VF says whether a lit pixel met a 1-bit
(40_display.md section 2; that the last column and row are drawn and clipped rows not read is the spec's decision D10,
notes/assumptions/11.md, the sampling of the coordinates before VF is cleared its decision D11). -/
def Obligations.DrawXorsClippedSprite : Prop :=
  ∀ (x y : RegIdx) (n : RowCount) (s : State) (x0 y0 : Nat),
    x0 = (s.readV x).toNat % 64 → y0 = (s.readV y).toNat % 32 → SpriteReadable s y0 n.val →
    ∃ t, exec (.drw x y n) s = .next t ∧
      (∀ px py, px < 64 → py < 32 → t.fb.pix px py = (s.fb.pix px py ^^ spriteBit s x0 y0 n.val px py)) ∧
      ((∃ px py, px < 64 ∧ py < 32 ∧ spriteBit s x0 y0 n.val px py = true ∧ s.fb.pix px py = true) → t.readV 15 = 1) ∧
      ((¬ ∃ px py, px < 64 ∧ py < 32 ∧ spriteBit s x0 y0 n.val px py = true ∧ s.fb.pix px py = true) →
        t.readV 15 = 0) ∧
      Frame [.fb, .v 15] s t

/-- `Dxyn` whose row r is the first with its byte above 0xFFF does what `Dxy r` does and then raises
(40_display.md section 2, decisions D10, D13). -/
def Obligations.DrawFaultKeepsRowsDrawn : Prop :=
  ∀ (x y : RegIdx) (n r : RowCount) (s : State),
    r.val < n.val → (s.readV y).toNat % 32 + r.val < 32 → 0xFFF < s.i.toNat + r.val →
    (∀ q, q < r.val → s.i.toNat + q ≤ 0xFFF) →
    ∃ t, exec (.drw x y r) s = .next t ∧ t.status = s.status ∧
      exec (.drw x y n) s = .next (t.raise (.memoryOutOfRange (s.i.toNat + r.val)))

/-- Drawing the same sprite twice at the same place restores the framebuffer (40_display.md section 2, a derived corner
case). The start must be the same for both draws, which it is whenever neither coordinate register is VF. -/
def Obligations.DrawTwiceRestoresDisplay : Prop :=
  ∀ (x y : RegIdx) (n : RowCount) (s : State), SpriteReadable s ((s.readV y).toNat % 32) n.val →
    ∃ t, exec (.drw x y n) s = .next t ∧
      ((t.readV x).toNat % 64 = (s.readV x).toNat % 64 → (t.readV y).toNat % 32 = (s.readV y).toNat % 32 →
        ∃ u, exec (.drw x y n) t = .next u ∧ KeepsDisplay s u)

/-- The drawing property of 40_display.md section 2 (R74, which the spec derives): an 8×8 sprite of set bits that does not
clip, drawn on dark pixels, lights them all with VF = 0; drawn again it darkens them all with VF = 1. Where the sprite ends
at column 63 or row 31 it rests on the spec's decision D10 (notes/assumptions/11.md). -/
def Obligations.FullSpriteDrawnTwice : Prop :=
  ∀ (x y : RegIdx) (s : State), (∀ k, k < 8 → s.mem.read (s.i.toNat + k) = 0xFF) → s.i.toNat + 7 ≤ 0xFFF →
    (s.readV x).toNat % 64 ≤ 56 → (s.readV y).toNat % 32 ≤ 24 →
    (∀ a b, a < 8 → b < 8 → s.fb.pix ((s.readV x).toNat % 64 + a) ((s.readV y).toNat % 32 + b) = false) →
    ∃ t, exec (.drw x y 8) s = .next t ∧ t.readV 15 = 0 ∧
      (∀ a b, a < 8 → b < 8 → t.fb.pix ((s.readV x).toNat % 64 + a) ((s.readV y).toNat % 32 + b) = true) ∧
      ((t.readV x).toNat % 64 = (s.readV x).toNat % 64 → (t.readV y).toNat % 32 = (s.readV y).toNat % 32 →
        ∃ u, exec (.drw x y 8) t = .next u ∧ u.readV 15 = 1 ∧
          ∀ a b, a < 8 → b < 8 → u.fb.pix ((s.readV x).toNat % 64 + a) ((s.readV y).toNat % 32 + b) = false)

/-- 40_display.md R76: framebuffers are equal exactly when every pixel matches. -/
def Obligations.FramebufferEqualityByPixels : Prop :=
  ∀ fb fb' : Framebuffer, fb = fb' ↔ ∀ px py, px < 64 → py < 32 → fb.pix px py = fb'.pix px py

/-- The host's read ports, in every status: the display's width and height, a pixel on the display, every register, the
live stack entries, the timers, the latch and the memory inside 0..0xFFF are answered, anything else is refused
(40_display.md section 3; 10_state.md section 5; decisions D20, D33). -/
def Obligations.ReadPortsAnswerWhatExists : Prop :=
  width = 64 ∧ height = 32 ∧ ∀ s : State,
    (∀ x, inspect s (.v x) = some (.byte (s.readV x))) ∧
    inspect s .i = some (.word s.i) ∧ inspect s .pc = some (.word s.pc) ∧ inspect s .sp = some (.count s.sp.val) ∧
    inspect s .dt = some (.byte s.dt) ∧ inspect s .st = some (.byte s.st) ∧
    inspect s .status = some (.status s.status) ∧
    (∀ px py, readPixel s px py = if px < 64 ∧ py < 32 then some (s.fb.pix px py) else none) ∧
    (∀ k : Fin 16, inspect s (.stack k.val) = if k.val < s.sp.val then some (.word s.stack[k]) else none) ∧
    (∀ k, 16 ≤ k → inspect s (.stack k) = none) ∧
    (∀ a, inspect s (.mem a) = if a ≤ 0xFFF then some (.byte (s.mem.read a)) else none) ∧
    (∀ px py, inspect s (.pixel px py) = (readPixel s px py).map .pixel)

/-! ### Memory -/

/-- A read returns the last byte written to its address, and a write leaves every other address alone, keeping the
canonical form (20_memory.md section 5; the form is the model's, notes/assumptions/9.md). That a write into the font region
succeeds is this hardware's `FONT_WRITE_POLICY` = store, the spec's decision D18 (notes/assumptions/12.md). -/
def Obligations.MemoryReadAfterWrite : Prop :=
  ∀ (s : State) (a : Nat) (b : Byte), s.mem.wf = true → a ≤ 0xFFF →
    ∃ t, memWrite Config.fontWritePolicy s a b = .ok t ∧ t.mem.wf = true ∧
      (∀ a', a' ≤ 0xFFF → memRead t a' = if a' = a then .ok b else memRead s a') ∧ Frame [.mem] s t

/-- Two canonical memories that read alike are equal: the form distinguishes no two equal stores
(notes/assumptions/9.md). -/
def Obligations.CanonicalMemoryUnique : Prop :=
  ∀ m m' : Memory, m.wf = true → m'.wf = true → (∀ a, a ≤ 0xFFF → m.read a = m'.read a) → m = m'

/-- Both values of `FONT_WRITE_POLICY`: under `store` the write is performed like any other, under `fault` it raises
`FontWrite(addr)` inside the font region only, range being checked first (20_memory.md section 2, decision D18). -/
def Obligations.FontWritePolicies : Prop :=
  ∀ (s : State) (a : Nat) (b : Byte),
    (a ≤ 0xFFF → memWrite .store s a b = .ok (s.setMem (s.mem.write a b))) ∧
    (0x050 ≤ a → a ≤ 0x09F → memWrite .fault s a b = .error (.fontWrite a)) ∧
    (a < 0x050 ∨ 0x09F < a → memWrite .fault s a b = memWrite .store s a b)

/-! ### Reset, load, timer -/

/-- The state after `Reset(rand)` (70_reset_and_hazards.md section 1). PC and the font's presence are the source's; the
zeros, the font's place and its bytes are the spec's decisions D2, D3, D4 (notes/assumptions/2.md, notes/assumptions/8.md);
the open load window and the queued answers are the model's (notes/assumptions/4.md, notes/assumptions/7.md). -/
def Obligations.ResetValues : Prop :=
  ∀ rand : List Byte, ∃ s, s = State.resetWith rand ∧ s.pc.toNat = 0x200 ∧ (∀ x, s.readV x = 0) ∧ s.i = 0 ∧ s.sp = 0 ∧
    s.dt = 0 ∧ s.st = 0 ∧ (∀ px py, px < 64 → py < 32 → s.fb.pix px py = false) ∧ s.status = .running ∧
    s.loadOpen = true ∧ s.randQueue = rand ∧
    ∀ a, a ≤ 0xFFF → s.mem.read a = if 0x050 ≤ a ∧ a ≤ 0x09F then Config.fontData.getD (a - 0x050) 0 else 0

/-- With no program loaded the first step raises `UnsupportedInstruction(0x0000)` (70_reset_and_hazards.md section 2, a
derived clause resting on decision D4). -/
def Obligations.UnloadedFirstStepFaults : Prop :=
  ∃ t, step State.reset = .next t ∧ t.status = .faulted (.unsupportedInstruction 0x0000) ∧ t.pc = 0x202

/-- `Load` of a fresh block: an image that fits is placed at 0x200, an oversize one raises with memory unchanged
(20_memory.md section 3, decision D17). -/
def Obligations.LoadPlacesImageOrRejects : Prop :=
  ∀ (bytes : List Byte) (s : State), s.isRunning → s.loadOpen = true → s.mem.wf = true →
    (bytes.length ≤ 0xE00 → ∃ t, load bytes s = .next t ∧ (∀ k (h : k < bytes.length), t.mem.read (0x200 + k) = bytes[k]) ∧
      KeepsMemoryOutside 0x200 bytes.length s t ∧ t.mem.wf = true ∧ t = (s.setMem t.mem).setLoadOpen false) ∧
    (0xE00 < bytes.length → load bytes s = .next (s.raise (.loadRejected bytes.length)))

/-- `Load` is refused, with no effect, once a `Load`, `Step` or `Execute` has run, whatever transactions follow it
(20_memory.md section 3, decision D17; the bit that remembers it is the model's, notes/assumptions/7.md): a running block
whose window is closed refuses, no transaction opens the window, and after a schedule that holds such a transaction it is
closed. -/
def Obligations.LoadAcceptedOnlyOnceAndFirst : Prop :=
  (∀ (s : State) (bytes : List Byte), s.isRunning → s.loadOpen = false → load bytes s = .refused .loadClosed) ∧
  (∀ (tr : Transaction) (s t : State), transact tr s = .next t → s.loadOpen = false → t.loadOpen = false) ∧
  (∀ (tr : Transaction) (after : List Transaction) (s t u : State) (bytes : List Byte), tr ≠ .tickDelay →
    transact tr s = .next t → runSchedule after t = .next u → u.isRunning → load bytes u = .refused .loadClosed)

/-- `TickDelay` of a running block: DT counts down and stays at 0, and nothing else changes (60_exceptions.md section 3;
the stop at 0 is the spec's decision D14, notes/assumptions/13.md). -/
def Obligations.TickCountsDownToZero : Prop :=
  ∀ s : State, s.isRunning → ∃ t, tickDelay s = .next t ∧ t.dt.toNat = s.dt.toNat - 1 ∧ Frame [.dt] s t

/-! ### Whole-machine rules -/

/-- 40_display.md R67: only `00E0` and `Dxyn` write the framebuffer, and they touch neither PC, stack, timers nor any V
register but VF. -/
def Obligations.OnlyDisplayFamilyWritesPixels : Prop :=
  ∀ (i : Instr) (s t : State), exec i s = .next t →
    ((i ≠ .cls ∧ ∀ x y n, i ≠ .drw x y n) → KeepsDisplay s t) ∧
    ((i = .cls ∨ ∃ x y n, i = .drw x y n) →
      t.pc = s.pc ∧ t.sp = s.sp ∧ t.stack = s.stack ∧ t.dt = s.dt ∧ t.st = s.st ∧
      ∀ x : RegIdx, x ≠ 15 → t.readV x = s.readV x)

/-- Who may write what (10_state.md sections 2 and 3; 43_index_memory_timer.md R102): memory only `Fx33` and `Fx55`, I
only `Annn`, `Fx1E` and `Fx29`, DT only `Fx15`, the stack only `2nnn` and `00EE`, the random source only `Cxkk`, the sound
timer nobody; PC only the control transfers, beyond the advance. -/
def Obligations.OnlyNamedWriters : Prop :=
  ∀ (i : Instr) (s t : State), exec i s = .next t →
    (KeepsMemory s t ∨ ∃ x, i = .ldB x ∨ i = .ldMemVx x) ∧
    (t.i = s.i ∨ (∃ nnn, i = .ldI nnn) ∨ ∃ x, i = .addI x ∨ i = .ldF x) ∧
    (t.dt = s.dt ∨ ∃ x, i = .ldDtVx x) ∧
    ((t.sp = s.sp ∧ t.stack = s.stack) ∨ i = .ret ∨ ∃ nnn, i = .call nnn) ∧
    ((t.randQueue = s.randQueue ∧ t.randDrawn = s.randDrawn) ∨ ∃ x kk, i = .rnd x kk) ∧
    t.st = s.st ∧
    (t.pc = s.pc ∨ i = .ret ∨ (∃ nnn, i = .jp nnn ∨ i = .call nnn ∨ i = .jpV0 nnn) ∨
      (∃ x kk, i = .seImm x kk ∨ i = .sneImm x kk) ∨ ∃ x y, i = .seReg x y ∨ i = .sneReg x y)

/-- Who may write VF (10_state.md section 1): the six flag-writing instructions, and an instruction whose destination is
VF. -/
def Obligations.OnlyFlagWritersOrDestinationWriteVF : Prop :=
  ∀ (i : Instr) (s t : State), exec i s = .next t → t.readV 15 ≠ s.readV 15 →
    (∃ x y, i = .addReg x y ∨ i = .sub x y ∨ i = .shr x y ∨ i = .subn x y ∨ i = .shl x y) ∨
    (∃ x y n, i = .drw x y n) ∨
    (∃ kk, i = .ldImm 15 kk ∨ i = .addImm 15 kk ∨ i = .rnd 15 kk) ∨
    (∃ y, i = .ldReg 15 y ∨ i = .orReg 15 y ∨ i = .andReg 15 y ∨ i = .xorReg 15 y) ∨
    i = .ldVxDt 15 ∨ i = .ldVxMem 15

/-! ### Invariants -/

/-- Every reset state meets both invariants (decisions D4 and D5; the canonical form is the model's,
notes/assumptions/9.md). -/
def Obligations.InvariantsHoldAtReset : Prop :=
  ∀ rand : List Byte, StoreInv (State.resetWith rand) ∧ PcInv (State.resetWith rand)

/-- Every step keeps memory in its canonical form and inside the address space, and ST at 0 (10_state.md section 3;
notes/assumptions/9.md). -/
def Obligations.StepKeepsStoreInv : Prop := ∀ s t : State, StoreInv s → step s = .next t → StoreInv t

/-- Every step keeps PC at or below 0x10FE and the live return addresses at or below 0x1000, the bound the spec derives in
10_state.md R22. -/
def Obligations.StepKeepsPcInv : Prop := ∀ s t : State, PcInv s → step s = .next t → PcInv t

/-- Every transaction of the host, `Step` among them, keeps memory in its canonical form and ST at 0; so every state that
the transactions reach from a reset block has both, whatever the schedule (10_state.md section 5; 60_exceptions.md section
3; notes/assumptions/9.md). -/
def Obligations.ReachableStatesKeepStoreInv : Prop :=
  (∀ (tr : Transaction) (s t : State), StoreInv s → transact tr s = .next t → StoreInv t) ∧
  ∀ s : State, Reachable s → StoreInv s

/-! ### What no instruction observes -/

/-- The sound timer is never read: a step commutes with changing it (10_state.md section 3, decision D15). -/
def Obligations.SoundTimerUnobservable : Prop :=
  ∀ (b : Byte) (s : State), step (withSt b s) = mapNext (withSt b) (step s)

/-- Dead stack entries are never read: states that differ only there step to states that differ only there, or stop alike
(10_state.md section 2; what a dead entry holds at reset is the model's choice, notes/assumptions/3.md). -/
def Obligations.DeadStackEntriesUnobservable : Prop :=
  ∀ s s' : State, SameButDeadStack s s' →
    (∃ t t', step s = .next t ∧ step s' = .next t' ∧ SameButDeadStack t t') ∨
    (∃ f, step s = .fault f ∧ step s' = .fault f)
end

