-- ==== Sys2Proof/Laws/Decode.lean ====
section
/-! SUPPORT. Laws of words as four hex digits: fields, masks, bytes. -/

namespace Sys2Proof

/-- Every instruction is well-formed, since the field types carry the operand ranges. -/
theorem instr_wellFormed (i : Instr) : i.wellFormed = true := by
  have h12 : ∀ a : Addr12, a.toNat < 4096 := fun a => a.isLt
  have h8 : ∀ b : Byte, b.toNat < 256 := fun b => b.isLt
  cases i <;> simp [Instr.wellFormed, Instr.operands, operandsFit, FieldKind.fits, FieldKind.width, h12, h8]

/-! ### Four hex digits -/

theorem getLsbD_ofNibbles (a b c d : Nibble) (k : Nat) :
    (ofNibbles a b c d).getLsbD k =
      if k < 4 then d.getLsbD k else if k < 8 then c.getLsbD (k - 4)
      else if k < 12 then b.getLsbD (k - 8) else a.getLsbD (k - 12) := by
  have h := BitVec.getLsbD_append (x := a ++ b ++ c) (y := d) (i := k)
  rw [BitVec.getLsbD_append (x := a ++ b) (y := c), BitVec.getLsbD_append (x := a) (y := b)] at h
  refine h.trans ?_
  by_cases h4 : k < 4
  · simp [h4]
  by_cases h8 : k < 8
  · simp [h4, h8, show k - 4 < 4 by omega]
  by_cases h12 : k < 12
  · simp [h4, h8, h12, show ¬ k - 4 < 4 by omega, show k - 8 < 4 by omega, show k - 4 - 4 = k - 8 by omega]
  · simp [h4, h8, h12, show ¬ k - 4 < 4 by omega, show ¬ k - 4 - 4 < 4 by omega, show k - 4 - 4 - 4 = k - 12 by omega]

/-- Two four-digit words are equal when their digits are. -/
theorem ofNibbles_inj {a b c d a' b' c' d' : Nibble} :
    ofNibbles a b c d = ofNibbles a' b' c' d' ↔ a = a' ∧ b = b' ∧ c = c' ∧ d = d' := by
  constructor
  · intro h
    have hb : ∀ k, (ofNibbles a b c d).getLsbD k = (ofNibbles a' b' c' d').getLsbD k := fun k => by rw [h]
    simp only [getLsbD_ofNibbles] at hb
    refine ⟨?_, ?_, ?_, ?_⟩ <;> apply BitVec.eq_of_getLsbD_eq <;> intro k hk
    · have := hb (k + 12)
      simpa [show ¬ k + 12 < 4 by omega, show ¬ k + 12 < 8 by omega] using this
    · have := hb (k + 8)
      simpa [show ¬ k + 8 < 4 by omega, show k + 8 < 12 by omega] using this
    · have := hb (k + 4)
      simpa [show k + 4 < 8 by omega] using this
    · have := hb k
      simpa [hk] using this
  · rintro ⟨rfl, rfl, rfl, rfl⟩
    rfl

/-- The bitwise AND of two words goes digit by digit. -/
theorem ofNibbles_and (a b c d a' b' c' d' : Nibble) :
    ofNibbles a b c d &&& ofNibbles a' b' c' d' = ofNibbles (a &&& a') (b &&& b') (c &&& c') (d &&& d') := by
  apply BitVec.eq_of_getLsbD_eq
  intro k hk
  simp only [BitVec.getLsbD_and, getLsbD_ofNibbles]
  repeat' split
  all_goals rfl

/-- Every word is four hex digits. -/
theorem exists_ofNibbles (w : Word) : ∃ a b c d, w = ofNibbles a b c d := by
  refine ⟨w.extractLsb' 12 4, w.extractLsb' 8 4, w.extractLsb' 4 4, w.extractLsb' 0 4, ?_⟩
  apply BitVec.eq_of_getLsbD_eq
  intro k hk
  simp only [getLsbD_ofNibbles, BitVec.getLsbD_extractLsb']
  by_cases h4 : k < 4
  · simp [h4]
  by_cases h8 : k < 8
  · simp [h4, h8, show k - 4 < 4 by omega, show 4 + (k - 4) = k by omega]
  by_cases h12 : k < 12
  · simp [h4, h8, h12, show k - 8 < 4 by omega, show 8 + (k - 8) = k by omega]
  · simp [h4, h8, h12, show k - 12 < 4 by omega, show 12 + (k - 12) = k by omega]

/-! ### Fields of four hex digits -/

@[simp] theorem fieldOp_ofNibbles (a b c d : Nibble) : fieldOp (ofNibbles a b c d) = a := by
  apply BitVec.eq_of_getLsbD_eq
  intro k hk
  simp [fieldOp, getLsbD_ofNibbles, hk, show ¬ 12 + k < 4 by omega, show ¬ 12 + k < 8 by omega]

@[simp] theorem fieldX_ofNibbles (a b c d : Nibble) : fieldX (ofNibbles a b c d) = b.toFin := by
  unfold fieldX
  congr 1
  apply BitVec.eq_of_getLsbD_eq
  intro k hk
  simp [getLsbD_ofNibbles, hk, show ¬ 8 + k < 4 by omega, show 8 + k < 12 by omega]

@[simp] theorem fieldY_ofNibbles (a b c d : Nibble) : fieldY (ofNibbles a b c d) = c.toFin := by
  unfold fieldY
  congr 1
  apply BitVec.eq_of_getLsbD_eq
  intro k hk
  simp [getLsbD_ofNibbles, hk, show 4 + k < 8 by omega]

@[simp] theorem fieldN_ofNibbles (a b c d : Nibble) : fieldN (ofNibbles a b c d) = d.toFin := by
  unfold fieldN
  congr 1
  apply BitVec.eq_of_getLsbD_eq
  intro k hk
  simp [getLsbD_ofNibbles, hk]

@[simp] theorem fieldKK_ofNibbles (a b c d : Nibble) : fieldKK (ofNibbles a b c d) = c ++ d := by
  apply BitVec.eq_of_getLsbD_eq
  intro k hk
  simp only [fieldKK, BitVec.getLsbD_extractLsb', hk, getLsbD_ofNibbles, Nat.zero_add, decide_true, Bool.true_and]
  refine Eq.trans ?_ (BitVec.getLsbD_append (x := c) (y := d) (i := k)).symm
  by_cases h4 : k < 4
  · simp [h4]
  · simp [h4]

@[simp] theorem fieldNNN_ofNibbles (a b c d : Nibble) : fieldNNN (ofNibbles a b c d) = b ++ c ++ d := by
  apply BitVec.eq_of_getLsbD_eq
  intro k hk
  simp only [fieldNNN, BitVec.getLsbD_extractLsb', hk, getLsbD_ofNibbles, Nat.zero_add, decide_true, Bool.true_and]
  have h := BitVec.getLsbD_append (x := b ++ c) (y := d) (i := k)
  rw [BitVec.getLsbD_append (x := b) (y := c)] at h
  refine Eq.trans ?_ h.symm
  by_cases h4 : k < 4
  · simp [h4]
  by_cases h8 : k < 8
  · simp [h4, h8, show k - 4 < 4 by omega]
  · simp [h4, h8, show ¬ k - 4 < 4 by omega, show k - 4 - 4 = k - 8 by omega]

/-! ### Operands as hex digits -/

/-- A byte is two hex digits. -/
theorem exists_nibbles_byte (b : Byte) : ∃ c d : Nibble, b = c ++ d := by
  refine ⟨b.extractLsb' 4 4, b.extractLsb' 0 4, ?_⟩
  apply BitVec.eq_of_getLsbD_eq
  intro k hk
  refine Eq.trans ?_ (BitVec.getLsbD_append (x := b.extractLsb' 4 4) (y := b.extractLsb' 0 4) (i := k)).symm
  by_cases h4 : k < 4
  · simp [h4]
  · simp [h4, show k - 4 < 4 by omega, show 4 + (k - 4) = k by omega]

/-- A 12-bit address is three hex digits. -/
theorem exists_nibbles_addr (a : Addr12) : ∃ b c d : Nibble, a = b ++ c ++ d := by
  refine ⟨a.extractLsb' 8 4, a.extractLsb' 4 4, a.extractLsb' 0 4, ?_⟩
  apply BitVec.eq_of_getLsbD_eq
  intro k hk
  have h := BitVec.getLsbD_append (x := a.extractLsb' 8 4 ++ a.extractLsb' 4 4) (y := a.extractLsb' 0 4) (i := k)
  rw [BitVec.getLsbD_append (x := a.extractLsb' 8 4) (y := a.extractLsb' 4 4)] at h
  refine Eq.trans ?_ h.symm
  by_cases h4 : k < 4
  · simp [h4]
  by_cases h8 : k < 8
  · simp [h4, show k - 4 < 4 by omega, show 4 + (k - 4) = k by omega]
  · simp [h4, show ¬ k - 4 < 4 by omega, show k - 4 - 4 < 4 by omega, show 8 + (k - 4 - 4) = k by omega]

@[simp] theorem nibbleOf_toFin (d : Nibble) : nibbleOf d.toFin = d := rfl
@[simp] theorem toFin_nibbleOf (x : Fin 16) : (nibbleOf x).toFin = x := rfl

theorem encodeXKK_eq (op : Nibble) (x : RegIdx) (c d : Nibble) :
    encodeXKK op x (c ++ d) = ofNibbles op (nibbleOf x) c d := by
  apply BitVec.eq_of_getLsbD_eq
  intro k hk
  have h := BitVec.getLsbD_append (x := op ++ nibbleOf x) (y := (c ++ d : Byte)) (i := k)
  rw [BitVec.getLsbD_append (x := op) (y := nibbleOf x)] at h
  have h2 := BitVec.getLsbD_append (x := c) (y := d) (i := k)
  refine h.trans ?_
  rw [getLsbD_ofNibbles]
  by_cases h4 : k < 4
  · rw [if_pos (by omega)]; refine h2.trans ?_; simp [h4]
  by_cases h8 : k < 8
  · rw [if_pos (by omega)]; refine h2.trans ?_; simp [h4, h8]
  by_cases h12 : k < 12
  · simp [h4, h8, h12, show k - 8 < 4 by omega]
  · simp [h4, h8, h12, show ¬ k - 8 < 4 by omega, show k - 8 - 4 = k - 12 by omega]

theorem encodeNNN_eq (op b c d : Nibble) : encodeNNN op (b ++ c ++ d) = ofNibbles op b c d := by
  apply BitVec.eq_of_getLsbD_eq
  intro k hk
  have h := BitVec.getLsbD_append (x := op) (y := (b ++ c ++ d : Addr12)) (i := k)
  have h2 := BitVec.getLsbD_append (x := b ++ c) (y := d) (i := k)
  rw [BitVec.getLsbD_append (x := b) (y := c)] at h2
  refine h.trans ?_
  rw [getLsbD_ofNibbles]
  by_cases h12 : k < 12
  · rw [if_pos h12]
    refine h2.trans ?_
    by_cases h4 : k < 4
    · simp [h4]
    by_cases h8 : k < 8
    · simp [h4, h8, show k - 4 < 4 by omega]
    · simp [h4, h8, h12, show ¬ k - 4 < 4 by omega, show k - 4 - 4 = k - 8 by omega]
  · rw [if_neg h12]
    simp [show ¬ k < 4 by omega, show ¬ k < 8 by omega, h12]

/-! ### The match test of R56, digit by digit -/

@[simp] theorem nibble_and_F (a : Nibble) : a &&& 0xF#4 = a := by revert a; decide
@[simp] theorem nibble_and_0 (a : Nibble) : a &&& 0x0#4 = 0x0#4 := by revert a; decide

/-- A row accepts a word when each masked digit is the row's. -/
theorem row_accepts_ofNibbles (r : Row) (a b c d p q t u p' q' t' u' : Nibble) (hm : r.mask = ofNibbles p' q' t' u')
    (hb : r.matchBits = ofNibbles p q t u) :
    r.accepts (ofNibbles a b c d) = decide (a &&& p' = p ∧ b &&& q' = q ∧ c &&& t' = t ∧ d &&& u' = u) := by
  rw [Row.accepts, hm, hb, ofNibbles_and, Bool.eq_iff_iff, beq_iff_eq, ofNibbles_inj, decide_eq_true_eq]

theorem accepts_F000 (mn : String) (f : Word → Instr) (p a b c d : Nibble) :
    Row.accepts ⟨mn, ofNibbles p 0 0 0, 0xF000, f⟩ (ofNibbles a b c d) = decide (a = p) := by
  rw [row_accepts_ofNibbles _ a b c d p 0 0 0 0xF 0 0 0 rfl rfl]
  simp

theorem accepts_F00F (mn : String) (f : Word → Instr) (p u a b c d : Nibble) :
    Row.accepts ⟨mn, ofNibbles p 0 0 u, 0xF00F, f⟩ (ofNibbles a b c d) = decide (a = p ∧ d = u) := by
  rw [row_accepts_ofNibbles _ a b c d p 0 0 u 0xF 0 0 0xF rfl rfl]
  simp

theorem accepts_F0FF (mn : String) (f : Word → Instr) (p t u a b c d : Nibble) :
    Row.accepts ⟨mn, ofNibbles p 0 t u, 0xF0FF, f⟩ (ofNibbles a b c d) = decide (a = p ∧ c = t ∧ d = u) := by
  rw [row_accepts_ofNibbles _ a b c d p 0 t u 0xF 0 0xF 0xF rfl rfl]
  simp

theorem accepts_FFFF (mn : String) (f : Word → Instr) (p q t u a b c d : Nibble) :
    Row.accepts ⟨mn, ofNibbles p q t u, 0xFFFF, f⟩ (ofNibbles a b c d) = decide (a = p ∧ b = q ∧ c = t ∧ d = u) := by
  rw [row_accepts_ofNibbles _ a b c d p q t u 0xF 0xF 0xF 0xF rfl rfl]
  simp

/-! ### Bytes of a word -/

@[simp] theorem wordOfBytes_hi_lo (w : Word) : wordOfBytes (hiByte w) (loByte w) = w := by
  apply BitVec.eq_of_getLsbD_eq
  intro k hk
  refine (BitVec.getLsbD_append (x := hiByte w) (y := loByte w) (i := k)).trans ?_
  by_cases h8 : k < 8
  · simp [h8, loByte]
  · simp [h8, hiByte, show k - 8 < 8 by omega, show 8 + (k - 8) = k by omega]

@[simp] theorem hiByte_wordOfBytes (hi lo : Byte) : hiByte (wordOfBytes hi lo) = hi := by
  apply BitVec.eq_of_getLsbD_eq
  intro k hk
  have h := BitVec.getLsbD_append (x := hi) (y := lo) (i := 8 + k)
  simpa [hiByte, wordOfBytes, hk] using h

@[simp] theorem loByte_wordOfBytes (hi lo : Byte) : loByte (wordOfBytes hi lo) = lo := by
  apply BitVec.eq_of_getLsbD_eq
  intro k hk
  have h := BitVec.getLsbD_append (x := hi) (y := lo) (i := k)
  simpa [loByte, wordOfBytes, hk] using h

/-- A stored word decodes as itself. -/
theorem decodeBytes_bytesOfWord (w : Word) (rest : List Byte) :
    decodeBytes (bytesOfWord w ++ rest) = match decode w with | some i => .instr i rest | none => .unsupported w := by
  cases hd : decode w <;>
    simp only [bytesOfWord, decodeBytes, List.cons_append, List.nil_append, wordOfBytes_hi_lo, hd]

end Sys2Proof
end

