-- ==== Sys2Proof/Laws/State.lean ====
section
/-! SUPPORT. One lemma per field per update of State, each true by rfl, and the register file's read-after-write law. -/

namespace Sys2Proof.Machine

/-! ### setV -/

@[simp] theorem State.setV_v (s : State) (a : RegFile) : (s.setV a).v = a := rfl
@[simp] theorem State.setV_i (s : State) (a : RegFile) : (s.setV a).i = s.i := rfl
@[simp] theorem State.setV_pc (s : State) (a : RegFile) : (s.setV a).pc = s.pc := rfl
@[simp] theorem State.setV_stack (s : State) (a : RegFile) : (s.setV a).stack = s.stack := rfl
@[simp] theorem State.setV_sp (s : State) (a : RegFile) : (s.setV a).sp = s.sp := rfl
@[simp] theorem State.setV_dt (s : State) (a : RegFile) : (s.setV a).dt = s.dt := rfl
@[simp] theorem State.setV_st (s : State) (a : RegFile) : (s.setV a).st = s.st := rfl
@[simp] theorem State.setV_fb (s : State) (a : RegFile) : (s.setV a).fb = s.fb := rfl
@[simp] theorem State.setV_mem (s : State) (a : RegFile) : (s.setV a).mem = s.mem := rfl
@[simp] theorem State.setV_status (s : State) (a : RegFile) : (s.setV a).status = s.status := rfl
@[simp] theorem State.setV_loadOpen (s : State) (a : RegFile) : (s.setV a).loadOpen = s.loadOpen := rfl
@[simp] theorem State.setV_randQueue (s : State) (a : RegFile) : (s.setV a).randQueue = s.randQueue := rfl
@[simp] theorem State.setV_randDrawn (s : State) (a : RegFile) : (s.setV a).randDrawn = s.randDrawn := rfl

/-! ### setI -/

@[simp] theorem State.setI_v (s : State) (a : Word) : (s.setI a).v = s.v := rfl
@[simp] theorem State.setI_i (s : State) (a : Word) : (s.setI a).i = a := rfl
@[simp] theorem State.setI_pc (s : State) (a : Word) : (s.setI a).pc = s.pc := rfl
@[simp] theorem State.setI_stack (s : State) (a : Word) : (s.setI a).stack = s.stack := rfl
@[simp] theorem State.setI_sp (s : State) (a : Word) : (s.setI a).sp = s.sp := rfl
@[simp] theorem State.setI_dt (s : State) (a : Word) : (s.setI a).dt = s.dt := rfl
@[simp] theorem State.setI_st (s : State) (a : Word) : (s.setI a).st = s.st := rfl
@[simp] theorem State.setI_fb (s : State) (a : Word) : (s.setI a).fb = s.fb := rfl
@[simp] theorem State.setI_mem (s : State) (a : Word) : (s.setI a).mem = s.mem := rfl
@[simp] theorem State.setI_status (s : State) (a : Word) : (s.setI a).status = s.status := rfl
@[simp] theorem State.setI_loadOpen (s : State) (a : Word) : (s.setI a).loadOpen = s.loadOpen := rfl
@[simp] theorem State.setI_randQueue (s : State) (a : Word) : (s.setI a).randQueue = s.randQueue := rfl
@[simp] theorem State.setI_randDrawn (s : State) (a : Word) : (s.setI a).randDrawn = s.randDrawn := rfl
@[simp] theorem State.readV_setI (s : State) (a : Word) (j : RegIdx) : (s.setI a).readV j = s.readV j := rfl

/-! ### setPc -/

@[simp] theorem State.setPc_v (s : State) (a : Word) : (s.setPc a).v = s.v := rfl
@[simp] theorem State.setPc_i (s : State) (a : Word) : (s.setPc a).i = s.i := rfl
@[simp] theorem State.setPc_pc (s : State) (a : Word) : (s.setPc a).pc = a := rfl
@[simp] theorem State.setPc_stack (s : State) (a : Word) : (s.setPc a).stack = s.stack := rfl
@[simp] theorem State.setPc_sp (s : State) (a : Word) : (s.setPc a).sp = s.sp := rfl
@[simp] theorem State.setPc_dt (s : State) (a : Word) : (s.setPc a).dt = s.dt := rfl
@[simp] theorem State.setPc_st (s : State) (a : Word) : (s.setPc a).st = s.st := rfl
@[simp] theorem State.setPc_fb (s : State) (a : Word) : (s.setPc a).fb = s.fb := rfl
@[simp] theorem State.setPc_mem (s : State) (a : Word) : (s.setPc a).mem = s.mem := rfl
@[simp] theorem State.setPc_status (s : State) (a : Word) : (s.setPc a).status = s.status := rfl
@[simp] theorem State.setPc_loadOpen (s : State) (a : Word) : (s.setPc a).loadOpen = s.loadOpen := rfl
@[simp] theorem State.setPc_randQueue (s : State) (a : Word) : (s.setPc a).randQueue = s.randQueue := rfl
@[simp] theorem State.setPc_randDrawn (s : State) (a : Word) : (s.setPc a).randDrawn = s.randDrawn := rfl
@[simp] theorem State.readV_setPc (s : State) (a : Word) (j : RegIdx) : (s.setPc a).readV j = s.readV j := rfl

/-! ### setStack -/

@[simp] theorem State.setStack_v (s : State) (a : CallStack) (n : StackCount) : (s.setStack a n).v = s.v := rfl
@[simp] theorem State.setStack_i (s : State) (a : CallStack) (n : StackCount) : (s.setStack a n).i = s.i := rfl
@[simp] theorem State.setStack_pc (s : State) (a : CallStack) (n : StackCount) : (s.setStack a n).pc = s.pc := rfl
@[simp] theorem State.setStack_stack (s : State) (a : CallStack) (n : StackCount) : (s.setStack a n).stack = a := rfl
@[simp] theorem State.setStack_sp (s : State) (a : CallStack) (n : StackCount) : (s.setStack a n).sp = n := rfl
@[simp] theorem State.setStack_dt (s : State) (a : CallStack) (n : StackCount) : (s.setStack a n).dt = s.dt := rfl
@[simp] theorem State.setStack_st (s : State) (a : CallStack) (n : StackCount) : (s.setStack a n).st = s.st := rfl
@[simp] theorem State.setStack_fb (s : State) (a : CallStack) (n : StackCount) : (s.setStack a n).fb = s.fb := rfl
@[simp] theorem State.setStack_mem (s : State) (a : CallStack) (n : StackCount) : (s.setStack a n).mem = s.mem := rfl
@[simp] theorem State.setStack_status (s : State) (a : CallStack) (n : StackCount) : (s.setStack a n).status = s.status := rfl
@[simp] theorem State.setStack_loadOpen (s : State) (a : CallStack) (n : StackCount) : (s.setStack a n).loadOpen = s.loadOpen := rfl
@[simp] theorem State.setStack_randQueue (s : State) (a : CallStack) (n : StackCount) : (s.setStack a n).randQueue = s.randQueue := rfl
@[simp] theorem State.setStack_randDrawn (s : State) (a : CallStack) (n : StackCount) : (s.setStack a n).randDrawn = s.randDrawn := rfl
@[simp] theorem State.readV_setStack (s : State) (a : CallStack) (n : StackCount) (j : RegIdx) : (s.setStack a n).readV j = s.readV j := rfl

/-! ### setDt -/

@[simp] theorem State.setDt_v (s : State) (a : Byte) : (s.setDt a).v = s.v := rfl
@[simp] theorem State.setDt_i (s : State) (a : Byte) : (s.setDt a).i = s.i := rfl
@[simp] theorem State.setDt_pc (s : State) (a : Byte) : (s.setDt a).pc = s.pc := rfl
@[simp] theorem State.setDt_stack (s : State) (a : Byte) : (s.setDt a).stack = s.stack := rfl
@[simp] theorem State.setDt_sp (s : State) (a : Byte) : (s.setDt a).sp = s.sp := rfl
@[simp] theorem State.setDt_dt (s : State) (a : Byte) : (s.setDt a).dt = a := rfl
@[simp] theorem State.setDt_st (s : State) (a : Byte) : (s.setDt a).st = s.st := rfl
@[simp] theorem State.setDt_fb (s : State) (a : Byte) : (s.setDt a).fb = s.fb := rfl
@[simp] theorem State.setDt_mem (s : State) (a : Byte) : (s.setDt a).mem = s.mem := rfl
@[simp] theorem State.setDt_status (s : State) (a : Byte) : (s.setDt a).status = s.status := rfl
@[simp] theorem State.setDt_loadOpen (s : State) (a : Byte) : (s.setDt a).loadOpen = s.loadOpen := rfl
@[simp] theorem State.setDt_randQueue (s : State) (a : Byte) : (s.setDt a).randQueue = s.randQueue := rfl
@[simp] theorem State.setDt_randDrawn (s : State) (a : Byte) : (s.setDt a).randDrawn = s.randDrawn := rfl
@[simp] theorem State.readV_setDt (s : State) (a : Byte) (j : RegIdx) : (s.setDt a).readV j = s.readV j := rfl

/-! ### setFb -/

@[simp] theorem State.setFb_v (s : State) (a : Framebuffer) : (s.setFb a).v = s.v := rfl
@[simp] theorem State.setFb_i (s : State) (a : Framebuffer) : (s.setFb a).i = s.i := rfl
@[simp] theorem State.setFb_pc (s : State) (a : Framebuffer) : (s.setFb a).pc = s.pc := rfl
@[simp] theorem State.setFb_stack (s : State) (a : Framebuffer) : (s.setFb a).stack = s.stack := rfl
@[simp] theorem State.setFb_sp (s : State) (a : Framebuffer) : (s.setFb a).sp = s.sp := rfl
@[simp] theorem State.setFb_dt (s : State) (a : Framebuffer) : (s.setFb a).dt = s.dt := rfl
@[simp] theorem State.setFb_st (s : State) (a : Framebuffer) : (s.setFb a).st = s.st := rfl
@[simp] theorem State.setFb_fb (s : State) (a : Framebuffer) : (s.setFb a).fb = a := rfl
@[simp] theorem State.setFb_mem (s : State) (a : Framebuffer) : (s.setFb a).mem = s.mem := rfl
@[simp] theorem State.setFb_status (s : State) (a : Framebuffer) : (s.setFb a).status = s.status := rfl
@[simp] theorem State.setFb_loadOpen (s : State) (a : Framebuffer) : (s.setFb a).loadOpen = s.loadOpen := rfl
@[simp] theorem State.setFb_randQueue (s : State) (a : Framebuffer) : (s.setFb a).randQueue = s.randQueue := rfl
@[simp] theorem State.setFb_randDrawn (s : State) (a : Framebuffer) : (s.setFb a).randDrawn = s.randDrawn := rfl
@[simp] theorem State.readV_setFb (s : State) (a : Framebuffer) (j : RegIdx) : (s.setFb a).readV j = s.readV j := rfl

/-! ### setMem -/

@[simp] theorem State.setMem_v (s : State) (a : Memory) : (s.setMem a).v = s.v := rfl
@[simp] theorem State.setMem_i (s : State) (a : Memory) : (s.setMem a).i = s.i := rfl
@[simp] theorem State.setMem_pc (s : State) (a : Memory) : (s.setMem a).pc = s.pc := rfl
@[simp] theorem State.setMem_stack (s : State) (a : Memory) : (s.setMem a).stack = s.stack := rfl
@[simp] theorem State.setMem_sp (s : State) (a : Memory) : (s.setMem a).sp = s.sp := rfl
@[simp] theorem State.setMem_dt (s : State) (a : Memory) : (s.setMem a).dt = s.dt := rfl
@[simp] theorem State.setMem_st (s : State) (a : Memory) : (s.setMem a).st = s.st := rfl
@[simp] theorem State.setMem_fb (s : State) (a : Memory) : (s.setMem a).fb = s.fb := rfl
@[simp] theorem State.setMem_mem (s : State) (a : Memory) : (s.setMem a).mem = a := rfl
@[simp] theorem State.setMem_status (s : State) (a : Memory) : (s.setMem a).status = s.status := rfl
@[simp] theorem State.setMem_loadOpen (s : State) (a : Memory) : (s.setMem a).loadOpen = s.loadOpen := rfl
@[simp] theorem State.setMem_randQueue (s : State) (a : Memory) : (s.setMem a).randQueue = s.randQueue := rfl
@[simp] theorem State.setMem_randDrawn (s : State) (a : Memory) : (s.setMem a).randDrawn = s.randDrawn := rfl
@[simp] theorem State.readV_setMem (s : State) (a : Memory) (j : RegIdx) : (s.setMem a).readV j = s.readV j := rfl

/-! ### setStatus -/

@[simp] theorem State.setStatus_v (s : State) (a : Status) : (s.setStatus a).v = s.v := rfl
@[simp] theorem State.setStatus_i (s : State) (a : Status) : (s.setStatus a).i = s.i := rfl
@[simp] theorem State.setStatus_pc (s : State) (a : Status) : (s.setStatus a).pc = s.pc := rfl
@[simp] theorem State.setStatus_stack (s : State) (a : Status) : (s.setStatus a).stack = s.stack := rfl
@[simp] theorem State.setStatus_sp (s : State) (a : Status) : (s.setStatus a).sp = s.sp := rfl
@[simp] theorem State.setStatus_dt (s : State) (a : Status) : (s.setStatus a).dt = s.dt := rfl
@[simp] theorem State.setStatus_st (s : State) (a : Status) : (s.setStatus a).st = s.st := rfl
@[simp] theorem State.setStatus_fb (s : State) (a : Status) : (s.setStatus a).fb = s.fb := rfl
@[simp] theorem State.setStatus_mem (s : State) (a : Status) : (s.setStatus a).mem = s.mem := rfl
@[simp] theorem State.setStatus_status (s : State) (a : Status) : (s.setStatus a).status = a := rfl
@[simp] theorem State.setStatus_loadOpen (s : State) (a : Status) : (s.setStatus a).loadOpen = s.loadOpen := rfl
@[simp] theorem State.setStatus_randQueue (s : State) (a : Status) : (s.setStatus a).randQueue = s.randQueue := rfl
@[simp] theorem State.setStatus_randDrawn (s : State) (a : Status) : (s.setStatus a).randDrawn = s.randDrawn := rfl
@[simp] theorem State.readV_setStatus (s : State) (a : Status) (j : RegIdx) : (s.setStatus a).readV j = s.readV j := rfl

/-! ### setLoadOpen -/

@[simp] theorem State.setLoadOpen_v (s : State) (a : Bool) : (s.setLoadOpen a).v = s.v := rfl
@[simp] theorem State.setLoadOpen_i (s : State) (a : Bool) : (s.setLoadOpen a).i = s.i := rfl
@[simp] theorem State.setLoadOpen_pc (s : State) (a : Bool) : (s.setLoadOpen a).pc = s.pc := rfl
@[simp] theorem State.setLoadOpen_stack (s : State) (a : Bool) : (s.setLoadOpen a).stack = s.stack := rfl
@[simp] theorem State.setLoadOpen_sp (s : State) (a : Bool) : (s.setLoadOpen a).sp = s.sp := rfl
@[simp] theorem State.setLoadOpen_dt (s : State) (a : Bool) : (s.setLoadOpen a).dt = s.dt := rfl
@[simp] theorem State.setLoadOpen_st (s : State) (a : Bool) : (s.setLoadOpen a).st = s.st := rfl
@[simp] theorem State.setLoadOpen_fb (s : State) (a : Bool) : (s.setLoadOpen a).fb = s.fb := rfl
@[simp] theorem State.setLoadOpen_mem (s : State) (a : Bool) : (s.setLoadOpen a).mem = s.mem := rfl
@[simp] theorem State.setLoadOpen_status (s : State) (a : Bool) : (s.setLoadOpen a).status = s.status := rfl
@[simp] theorem State.setLoadOpen_loadOpen (s : State) (a : Bool) : (s.setLoadOpen a).loadOpen = a := rfl
@[simp] theorem State.setLoadOpen_randQueue (s : State) (a : Bool) : (s.setLoadOpen a).randQueue = s.randQueue := rfl
@[simp] theorem State.setLoadOpen_randDrawn (s : State) (a : Bool) : (s.setLoadOpen a).randDrawn = s.randDrawn := rfl
@[simp] theorem State.readV_setLoadOpen (s : State) (a : Bool) (j : RegIdx) : (s.setLoadOpen a).readV j = s.readV j := rfl

/-! ### setRand -/

@[simp] theorem State.setRand_v (s : State) (a : List Byte) (n : Nat) : (s.setRand a n).v = s.v := rfl
@[simp] theorem State.setRand_i (s : State) (a : List Byte) (n : Nat) : (s.setRand a n).i = s.i := rfl
@[simp] theorem State.setRand_pc (s : State) (a : List Byte) (n : Nat) : (s.setRand a n).pc = s.pc := rfl
@[simp] theorem State.setRand_stack (s : State) (a : List Byte) (n : Nat) : (s.setRand a n).stack = s.stack := rfl
@[simp] theorem State.setRand_sp (s : State) (a : List Byte) (n : Nat) : (s.setRand a n).sp = s.sp := rfl
@[simp] theorem State.setRand_dt (s : State) (a : List Byte) (n : Nat) : (s.setRand a n).dt = s.dt := rfl
@[simp] theorem State.setRand_st (s : State) (a : List Byte) (n : Nat) : (s.setRand a n).st = s.st := rfl
@[simp] theorem State.setRand_fb (s : State) (a : List Byte) (n : Nat) : (s.setRand a n).fb = s.fb := rfl
@[simp] theorem State.setRand_mem (s : State) (a : List Byte) (n : Nat) : (s.setRand a n).mem = s.mem := rfl
@[simp] theorem State.setRand_status (s : State) (a : List Byte) (n : Nat) : (s.setRand a n).status = s.status := rfl
@[simp] theorem State.setRand_loadOpen (s : State) (a : List Byte) (n : Nat) : (s.setRand a n).loadOpen = s.loadOpen := rfl
@[simp] theorem State.setRand_randQueue (s : State) (a : List Byte) (n : Nat) : (s.setRand a n).randQueue = a := rfl
@[simp] theorem State.setRand_randDrawn (s : State) (a : List Byte) (n : Nat) : (s.setRand a n).randDrawn = n := rfl
@[simp] theorem State.readV_setRand (s : State) (a : List Byte) (n : Nat) (j : RegIdx) : (s.setRand a n).readV j = s.readV j := rfl

/-! ### writeV -/

@[simp] theorem State.writeV_v (s : State) (x : RegIdx) (b : Byte) : (s.writeV x b).v = s.v.set x b := rfl
@[simp] theorem State.writeV_i (s : State) (x : RegIdx) (b : Byte) : (s.writeV x b).i = s.i := rfl
@[simp] theorem State.writeV_pc (s : State) (x : RegIdx) (b : Byte) : (s.writeV x b).pc = s.pc := rfl
@[simp] theorem State.writeV_stack (s : State) (x : RegIdx) (b : Byte) : (s.writeV x b).stack = s.stack := rfl
@[simp] theorem State.writeV_sp (s : State) (x : RegIdx) (b : Byte) : (s.writeV x b).sp = s.sp := rfl
@[simp] theorem State.writeV_dt (s : State) (x : RegIdx) (b : Byte) : (s.writeV x b).dt = s.dt := rfl
@[simp] theorem State.writeV_st (s : State) (x : RegIdx) (b : Byte) : (s.writeV x b).st = s.st := rfl
@[simp] theorem State.writeV_fb (s : State) (x : RegIdx) (b : Byte) : (s.writeV x b).fb = s.fb := rfl
@[simp] theorem State.writeV_mem (s : State) (x : RegIdx) (b : Byte) : (s.writeV x b).mem = s.mem := rfl
@[simp] theorem State.writeV_status (s : State) (x : RegIdx) (b : Byte) : (s.writeV x b).status = s.status := rfl
@[simp] theorem State.writeV_loadOpen (s : State) (x : RegIdx) (b : Byte) : (s.writeV x b).loadOpen = s.loadOpen := rfl
@[simp] theorem State.writeV_randQueue (s : State) (x : RegIdx) (b : Byte) : (s.writeV x b).randQueue = s.randQueue := rfl
@[simp] theorem State.writeV_randDrawn (s : State) (x : RegIdx) (b : Byte) : (s.writeV x b).randDrawn = s.randDrawn := rfl

/-! ### raise -/

@[simp] theorem State.raise_v (s : State) (f : Fault) : (s.raise f).v = s.v := rfl
@[simp] theorem State.raise_i (s : State) (f : Fault) : (s.raise f).i = s.i := rfl
@[simp] theorem State.raise_pc (s : State) (f : Fault) : (s.raise f).pc = s.pc := rfl
@[simp] theorem State.raise_stack (s : State) (f : Fault) : (s.raise f).stack = s.stack := rfl
@[simp] theorem State.raise_sp (s : State) (f : Fault) : (s.raise f).sp = s.sp := rfl
@[simp] theorem State.raise_dt (s : State) (f : Fault) : (s.raise f).dt = s.dt := rfl
@[simp] theorem State.raise_st (s : State) (f : Fault) : (s.raise f).st = s.st := rfl
@[simp] theorem State.raise_fb (s : State) (f : Fault) : (s.raise f).fb = s.fb := rfl
@[simp] theorem State.raise_mem (s : State) (f : Fault) : (s.raise f).mem = s.mem := rfl
@[simp] theorem State.raise_status (s : State) (f : Fault) : (s.raise f).status = .faulted f := rfl
@[simp] theorem State.raise_loadOpen (s : State) (f : Fault) : (s.raise f).loadOpen = s.loadOpen := rfl
@[simp] theorem State.raise_randQueue (s : State) (f : Fault) : (s.raise f).randQueue = s.randQueue := rfl
@[simp] theorem State.raise_randDrawn (s : State) (f : Fault) : (s.raise f).randDrawn = s.randDrawn := rfl
@[simp] theorem State.readV_raise (s : State) (f : Fault) (j : RegIdx) : (s.raise f).readV j = s.readV j := rfl

/-! ### begun -/

@[simp] theorem State.begun_v (s : State) : (s.begun).v = s.v := rfl
@[simp] theorem State.begun_i (s : State) : (s.begun).i = s.i := rfl
@[simp] theorem State.begun_pc (s : State) : (s.begun).pc = s.pc := rfl
@[simp] theorem State.begun_stack (s : State) : (s.begun).stack = s.stack := rfl
@[simp] theorem State.begun_sp (s : State) : (s.begun).sp = s.sp := rfl
@[simp] theorem State.begun_dt (s : State) : (s.begun).dt = s.dt := rfl
@[simp] theorem State.begun_st (s : State) : (s.begun).st = s.st := rfl
@[simp] theorem State.begun_fb (s : State) : (s.begun).fb = s.fb := rfl
@[simp] theorem State.begun_mem (s : State) : (s.begun).mem = s.mem := rfl
@[simp] theorem State.begun_status (s : State) : (s.begun).status = s.status := rfl
@[simp] theorem State.begun_loadOpen (s : State) : (s.begun).loadOpen = false := rfl
@[simp] theorem State.begun_randQueue (s : State) : (s.begun).randQueue = s.randQueue := rfl
@[simp] theorem State.begun_randDrawn (s : State) : (s.begun).randDrawn = s.randDrawn := rfl
@[simp] theorem State.readV_begun (s : State) (j : RegIdx) : (s.begun).readV j = s.readV j := rfl

/-! ### advance -/

@[simp] theorem State.advance_v (s : State) : (s.advance).v = s.v := rfl
@[simp] theorem State.advance_i (s : State) : (s.advance).i = s.i := rfl
@[simp] theorem State.advance_pc (s : State) : (s.advance).pc = pcPlus2 s.pc := rfl
@[simp] theorem State.advance_stack (s : State) : (s.advance).stack = s.stack := rfl
@[simp] theorem State.advance_sp (s : State) : (s.advance).sp = s.sp := rfl
@[simp] theorem State.advance_dt (s : State) : (s.advance).dt = s.dt := rfl
@[simp] theorem State.advance_st (s : State) : (s.advance).st = s.st := rfl
@[simp] theorem State.advance_fb (s : State) : (s.advance).fb = s.fb := rfl
@[simp] theorem State.advance_mem (s : State) : (s.advance).mem = s.mem := rfl
@[simp] theorem State.advance_status (s : State) : (s.advance).status = s.status := rfl
@[simp] theorem State.advance_loadOpen (s : State) : (s.advance).loadOpen = s.loadOpen := rfl
@[simp] theorem State.advance_randQueue (s : State) : (s.advance).randQueue = s.randQueue := rfl
@[simp] theorem State.advance_randDrawn (s : State) : (s.advance).randDrawn = s.randDrawn := rfl
@[simp] theorem State.readV_advance (s : State) (j : RegIdx) : (s.advance).readV j = s.readV j := rfl

/-! ### Register file -/

/-- A register reads as what was last written to it, and as before elsewhere. -/
theorem State.readV_writeV (s : State) (x j : RegIdx) (b : Byte) :
    (s.writeV x b).readV j = if j = x then b else s.readV j := by
  simp only [State.readV, State.writeV_v, Fin.getElem_fin, Vector.getElem_set, Fin.ext_iff, eq_comm]

@[simp] theorem State.readV_writeV_self (s : State) (x : RegIdx) (b : Byte) : (s.writeV x b).readV x = b := by
  simp [State.readV_writeV]

theorem State.readV_writeV_ne (s : State) {x j : RegIdx} (b : Byte) (h : j ≠ x) :
    (s.writeV x b).readV j = s.readV j := by
  simp [State.readV_writeV, h]

@[simp] theorem State.readV_resetWith (rand : List Byte) (j : RegIdx) : (State.resetWith rand).readV j = 0 := by
  simp [State.readV, State.resetWith]

/-- A register is its element of the vector. -/
theorem State.readV_eq_getElem (s : State) (k : Nat) (h : k < 16) : s.readV ⟨k, h⟩ = s.v[k] := rfl

end Sys2Proof.Machine
end

