-- ==== Sys2Proof/Laws/Memory.lean ====
section
/-! SUPPORT. Laws of memory: read after write, the canonical form, and what the store and load loops can do. -/

namespace Sys2Proof.Machine

/-! ### Canonical form -/

theorem Memory.wfFrom_cons {lo k : Nat} {b : Byte} {m : Memory} :
    Memory.wfFrom lo ((k, b) :: m) = true ↔
      lo ≤ k ∧ k < Config.memSize ∧ b ≠ resetByte k ∧ Memory.wfFrom (k + 1) m = true := by
  simp [Memory.wfFrom, and_assoc]

theorem Memory.wfFrom_mono {lo lo' : Nat} {m : Memory} (h : Memory.wfFrom lo m = true) (hl : lo' ≤ lo) :
    Memory.wfFrom lo' m = true := by
  cases m with
  | nil => rfl
  | cons c m =>
    obtain ⟨k, b⟩ := c
    rw [Memory.wfFrom_cons] at h ⊢
    exact ⟨by omega, h.2⟩

/-- Below its first possible address a canonical memory reads as at reset. -/
theorem Memory.read_of_lt {lo a : Nat} {m : Memory} (h : Memory.wfFrom lo m = true) (ha : a < lo) :
    m.read a = resetByte a := by
  induction m generalizing lo with
  | nil => rfl
  | cons c m ih =>
    obtain ⟨k, b⟩ := c
    rw [Memory.wfFrom_cons] at h
    have hk : k ≠ a := by omega
    simp only [Memory.read, hk, if_false]
    exact ih h.2.2.2 (by omega)

/-- Above the address space a canonical memory reads as at reset. -/
theorem Memory.read_of_ge {lo a : Nat} {m : Memory} (h : Memory.wfFrom lo m = true) (ha : Config.memSize ≤ a) :
    m.read a = resetByte a := by
  induction m generalizing lo with
  | nil => rfl
  | cons c m ih =>
    obtain ⟨k, b⟩ := c
    rw [Memory.wfFrom_cons] at h
    have hk : k ≠ a := by have := h.2.1; omega
    simp only [Memory.read, hk, if_false]
    exact ih h.2.2.2

theorem Memory.read_consByte_ne (m : Memory) {a a' : Nat} (b : Byte) (h : a' ≠ a) :
    (Memory.consByte a b m).read a' = m.read a' := by
  unfold Memory.consByte
  split
  · rfl
  · simp [Memory.read, h.symm]

theorem Memory.read_consByte_self {m : Memory} {a : Nat} (b : Byte) (h : m.read a = resetByte a) :
    (Memory.consByte a b m).read a = b := by
  unfold Memory.consByte
  split
  · next e => rw [h, e]
  · simp [Memory.read]

theorem Memory.consByte_wf {lo a : Nat} {m : Memory} (b : Byte) (hl : lo ≤ a) (ha : a < Config.memSize)
    (h : Memory.wfFrom (a + 1) m = true) : Memory.wfFrom lo (Memory.consByte a b m) = true := by
  unfold Memory.consByte
  split
  · exact Memory.wfFrom_mono h (by omega)
  · next e => exact Memory.wfFrom_cons.2 ⟨hl, ha, e, h⟩

/-- A write leaves every other address alone. -/
theorem Memory.read_write_ne (m : Memory) {a a' : Nat} (b : Byte) (h : a' ≠ a) :
    (m.write a b).read a' = m.read a' := by
  induction m with
  | nil => exact Memory.read_consByte_ne [] b h
  | cons c m ih =>
    obtain ⟨k, c⟩ := c
    unfold Memory.write
    split
    · exact Memory.read_consByte_ne _ b h
    · split
      · next e =>
        subst e
        rw [Memory.read_consByte_ne m b h]
        simp [Memory.read, h.symm]
      · simp only [Memory.read]
        rw [ih]

/-- A write is what the address reads as afterwards. -/
theorem Memory.read_write_self {m : Memory} (hm : m.wf = true) (a : Nat) (b : Byte) : (m.write a b).read a = b := by
  suffices H : ∀ lo, Memory.wfFrom lo m = true → (m.write a b).read a = b from H 0 hm
  induction m with
  | nil => exact fun _ _ => Memory.read_consByte_self b rfl
  | cons c m ih =>
    obtain ⟨k, c⟩ := c
    intro lo h
    have h' := Memory.wfFrom_cons.1 h
    unfold Memory.write
    split
    · next hak => exact Memory.read_consByte_self b (Memory.read_of_lt (Memory.wfFrom_cons.2 ⟨Nat.le_refl k, h'.2⟩) hak)
    · split
      · next e => exact Memory.read_consByte_self b (Memory.read_of_lt h'.2.2.2 (by omega))
      · next hne =>
        have hk : k ≠ a := fun e => hne e.symm
        simp only [Memory.read, hk, if_false]
        exact ih (Memory.wfFrom_mono h'.2.2.2 (Nat.zero_le _)) (k + 1) h'.2.2.2

/-- A write keeps the canonical form. -/
theorem Memory.write_wf {m : Memory} (hm : m.wf = true) {a : Nat} (b : Byte) (ha : a < Config.memSize) :
    (m.write a b).wf = true := by
  suffices H : ∀ lo, lo ≤ a → Memory.wfFrom lo m = true → Memory.wfFrom lo (m.write a b) = true from
    H 0 (Nat.zero_le a) hm
  clear hm
  induction m with
  | nil => exact fun lo hl _ => Memory.consByte_wf b hl ha rfl
  | cons c m ih =>
    obtain ⟨k, c⟩ := c
    intro lo hl h
    have h' := Memory.wfFrom_cons.1 h
    unfold Memory.write
    split
    · next hak => exact Memory.consByte_wf b hl ha (Memory.wfFrom_cons.2 ⟨by omega, h'.2⟩)
    · split
      · next e => exact Memory.consByte_wf b hl ha (e ▸ h'.2.2.2)
      · exact Memory.wfFrom_cons.2 ⟨h'.1, h'.2.1, h'.2.2.1, ih (k + 1) (by omega) h'.2.2.2⟩

@[simp] theorem Memory.wf_nil : Memory.wf [] = true := rfl

/-! ### Runs of bytes -/

/-- Bytes written at ascending addresses stay inside `a .. a + bs.length - 1`. -/
theorem Memory.read_writeBytes_outside (bs : List Byte) (m : Memory) (a a' : Nat) (h : a' < a ∨ a + bs.length ≤ a') :
    (m.writeBytes a bs).read a' = m.read a' := by
  induction bs generalizing m a with
  | nil => rfl
  | cons b bs ih =>
    simp only [List.length_cons] at h
    rw [Memory.writeBytes, ih _ _ (by omega), Memory.read_write_ne _ _ (by omega)]

theorem Memory.writeBytes_wf {bs : List Byte} {m : Memory} {a : Nat} (hm : m.wf = true)
    (h : a + bs.length ≤ Config.memSize) : (m.writeBytes a bs).wf = true := by
  induction bs generalizing m a with
  | nil => exact hm
  | cons b bs ih =>
    simp only [List.length_cons] at h
    exact ih (Memory.write_wf hm b (by omega)) (by omega)

/-- The k-th byte written is what address `a + k` reads as. -/
theorem Memory.read_writeBytes {bs : List Byte} {m : Memory} {a : Nat} (hm : m.wf = true)
    (h : a + bs.length ≤ Config.memSize) (k : Nat) (hk : k < bs.length) : (m.writeBytes a bs).read (a + k) = bs[k] := by
  induction bs generalizing m a k with
  | nil => simp at hk
  | cons b bs ih =>
    simp only [List.length_cons] at h hk
    rw [Memory.writeBytes]
    cases k with
    | zero => rw [Memory.read_writeBytes_outside _ _ _ _ (by omega), Nat.add_zero, Memory.read_write_self hm]; rfl
    | succ k =>
      have := ih (m := m.write a b) (a := a + 1) (Memory.write_wf hm b (by omega)) (by omega) k (by omega)
      rw [show a + (k + 1) = a + 1 + k by omega, this]
      rfl

/-! ### Checked accesses -/

/-- The font region is 0x050 .. 0x09F. -/
theorem inFont_iff (a : Nat) : inFont a = true ↔ 0x050 ≤ a ∧ a ≤ 0x09F := by
  simp only [inFont, Config.fontStart, Config.fontLen, Config.fontGlyphs, Config.glyphBytes, Bool.and_eq_true,
    decide_eq_true_eq]
  omega

theorem memRead_ok {s : State} {a : Nat} (h : a < Config.memSize) : memRead s a = .ok (s.mem.read a) := by
  simp [memRead, Nat.not_le.2 h]

theorem memRead_error {s : State} {a : Nat} (h : Config.memSize ≤ a) : memRead s a = .error (.memoryOutOfRange a) := by
  simp only [memRead, h, if_true]

theorem memWrite_store_ok {s : State} {a : Nat} (b : Byte) (h : a < Config.memSize) :
    memWrite .store s a b = .ok (s.setMem (s.mem.write a b)) := by
  simp [memWrite, Nat.not_le.2 h]

theorem memWrite_error {p : Config.FontWritePolicy} {s : State} {a : Nat} (b : Byte) (h : Config.memSize ≤ a) :
    memWrite p s a b = .error (.memoryOutOfRange a) := by
  simp only [memWrite, h, if_true]

/-- All a checked write can do when it does not fault. -/
theorem memWrite_cases {p : Config.FontWritePolicy} {s t : State} {a : Nat} {b : Byte} (h : memWrite p s a b = .ok t) :
    a < Config.memSize ∧ t = s.setMem (s.mem.write a b) := by
  unfold memWrite at h
  split at h
  · cases h
  · split at h
    · cases h
    · cases h
      exact ⟨by omega, rfl⟩

@[simp] theorem setMem_setMem (s : State) (m m' : Memory) : (s.setMem m).setMem m' = s.setMem m' := rfl

/-- A store of bytes that all exist, under this hardware's policy. -/
theorem storeBytes_store_ok (bs : List Byte) (a : Nat) (s : State) (h : a + bs.length ≤ Config.memSize) :
    storeBytes .store bs a s = .next (s.setMem (s.mem.writeBytes a bs)) := by
  induction bs generalizing a s with
  | nil => rfl
  | cons b bs ih =>
    simp only [List.length_cons] at h
    simp only [storeBytes, memWrite_store_ok b (show a < Config.memSize by omega)]
    rw [ih _ _ (by omega)]
    rfl

/-- A store whose `k`-th access is the first above the address space, under this hardware's policy. -/
theorem storeBytes_store_fault (bs : List Byte) (a k : Nat) (s : State) (hk : k < bs.length)
    (hin : ∀ j, j < k → a + j < Config.memSize) (hout : Config.memSize ≤ a + k) :
    storeBytes .store bs a s = .next ((s.setMem (s.mem.writeBytes a (bs.take k))).raise (.memoryOutOfRange (a + k))) := by
  induction bs generalizing a k s with
  | nil => simp at hk
  | cons b bs ih =>
    cases k with
    | zero => simp only [storeBytes, memWrite_error b (show Config.memSize ≤ a by omega)]; rfl
    | succ k =>
      simp only [storeBytes, memWrite_store_ok b (show a < Config.memSize by have := hin 0 (by omega); omega)]
      rw [ih (a + 1) k _ (by simpa using hk) (fun j hj => by have := hin (j + 1) (by omega); omega) (by omega),
        show a + 1 + k = a + (k + 1) by omega]
      rfl

/-- All a store of bytes can do under this hardware's policy: it writes them all, or it writes those below the end of the
address space and raises. -/
theorem storeBytes_effect (bs : List Byte) (a : Nat) (s : State) :
    ((bs = [] ∨ a + bs.length ≤ Config.memSize) ∧ storeBytes .store bs a s = .next (s.setMem (s.mem.writeBytes a bs))) ∨
    ∃ k, k < bs.length ∧ (∀ j, j < k → a + j < Config.memSize) ∧ Config.memSize ≤ a + k ∧
      storeBytes .store bs a s =
        .next ((s.setMem (s.mem.writeBytes a (bs.take k))).raise (.memoryOutOfRange (a + k))) := by
  by_cases h : a + bs.length ≤ Config.memSize
  · exact .inl ⟨.inr h, storeBytes_store_ok bs a s h⟩
  · rcases bs with _ | ⟨b, bs⟩
    · exact .inl ⟨.inl rfl, rfl⟩
    · have hk : Config.memSize - a < (b :: bs).length := by simp only [List.length_cons] at h ⊢; omega
      exact .inr ⟨Config.memSize - a, hk, by omega, by omega, storeBytes_store_fault _ a _ s hk (by omega) (by omega)⟩

/-- A load whose `m`-th access is the first above the address space. -/
theorem loadRegs_fault (count k m : Nat) (s : State) (hm : m < count) (hk : k + count ≤ 16)
    (hin : ∀ j, j < m → s.i.toNat + k + j < Config.memSize) (hout : Config.memSize ≤ s.i.toNat + k + m) :
    ∃ t, loadRegs count k s = .next (t.raise (.memoryOutOfRange (s.i.toNat + k + m))) ∧ t = s.setV t.v ∧
      ∀ j : RegIdx, t.readV j = if k ≤ j.val ∧ j.val < k + m then s.mem.read (s.i.toNat + j.val) else s.readV j := by
  induction m generalizing count k s with
  | zero =>
    obtain ⟨count, rfl⟩ : ∃ c, count = c + 1 := ⟨count - 1, by omega⟩
    refine ⟨s, ?_, rfl, fun j => by rw [if_neg (by omega)]⟩
    simp only [loadRegs, memRead_error (show Config.memSize ≤ s.i.toNat + k by omega)]
    rfl
  | succ m ih =>
    obtain ⟨count, rfl⟩ : ∃ c, count = c + 1 := ⟨count - 1, by omega⟩
    have h0 := hin 0 (by omega)
    obtain ⟨t, ht, hs, hv⟩ := ih count (k + 1) (s.writeV (Fin.ofNat 16 k) (s.mem.read (s.i.toNat + k))) (by omega)
      (by omega) (fun j hj => by have := hin (j + 1) (by omega); simp only [State.writeV_i]; omega)
      (by simp only [State.writeV_i]; omega)
    refine ⟨t, ?_, ?_, fun j => ?_⟩
    · simp only [loadRegs, memRead_ok (show s.i.toNat + k < Config.memSize by omega)]
      rw [ht, State.writeV_i, show s.i.toNat + (k + 1) + m = s.i.toNat + k + (m + 1) by omega]
    · rw [hs]; rfl
    · rw [hv j]
      have hkv : (Fin.ofNat 16 k).val = k := by simp only [Fin.val_ofNat]; omega
      simp only [State.writeV_i, State.writeV_mem, State.readV_writeV, Fin.ext_iff, hkv]
      by_cases h1 : j.val = k
      · rw [if_neg (by omega), if_pos h1, if_pos (by omega), h1]
      · by_cases h2 : k + 1 ≤ j.val ∧ j.val < k + 1 + m
        · rw [if_pos h2, if_pos (by omega)]
        · rw [if_neg h2, if_neg h1, if_neg (by omega)]

/-- A load of registers whose bytes all exist: register `j` of the block receives the byte at `I + j`. -/
theorem loadRegs_ok (count k : Nat) (s : State) (hk : k + count ≤ 16) (h : s.i.toNat + k + count ≤ Config.memSize) :
    ∃ t, loadRegs count k s = .next t ∧ t = s.setV t.v ∧
      ∀ j : RegIdx, t.readV j = if k ≤ j.val ∧ j.val < k + count then s.mem.read (s.i.toNat + j.val) else s.readV j := by
  induction count generalizing k s with
  | zero => exact ⟨s, rfl, rfl, fun j => by rw [if_neg (by omega)]⟩
  | succ count ih =>
    obtain ⟨t, ht, hs, hv⟩ := ih (k + 1) (s.writeV (Fin.ofNat 16 k) (s.mem.read (s.i.toNat + k))) (by omega)
      (by simp only [State.writeV_i]; omega)
    refine ⟨t, ?_, ?_, fun j => ?_⟩
    · simp only [loadRegs, memRead_ok (show s.i.toNat + k < Config.memSize by omega)]
      exact ht
    · rw [hs]; rfl
    · rw [hv j]
      have hkv : (Fin.ofNat 16 k).val = k := by simp only [Fin.val_ofNat]; omega
      simp only [State.writeV_i, State.writeV_mem, State.readV_writeV, Fin.ext_iff, hkv]
      by_cases h1 : j.val = k
      · rw [if_neg (by omega), if_pos h1, if_pos (by omega), h1]
      · by_cases h2 : k + 1 ≤ j.val ∧ j.val < k + 1 + count
        · rw [if_pos h2, if_pos (by omega)]
        · rw [if_neg h2, if_neg h1, if_neg (by omega)]

/-- All a load of V0 .. V(count - 1) can do: it writes V registers only, and it ends or raises. -/
theorem loadRegs_effect (count : Nat) (s : State) (hc : count ≤ 16) :
    ∃ t, t = s.setV t.v ∧ (∀ j : RegIdx, count ≤ j.val → t.readV j = s.readV j) ∧
      (loadRegs count 0 s = .next t ∨ ∃ k, k < count ∧ Config.memSize ≤ s.i.toNat + k ∧
        loadRegs count 0 s = .next (t.raise (.memoryOutOfRange (s.i.toNat + k)))) := by
  by_cases h : s.i.toNat + count ≤ Config.memSize
  · obtain ⟨t, ht, hs, hv⟩ := loadRegs_ok count 0 s (by omega) (by omega)
    exact ⟨t, hs, fun j hj => by rw [hv, if_neg (by omega)], .inl ht⟩
  · by_cases h0 : count = 0
    · subst h0
      exact ⟨s, rfl, fun _ _ => rfl, .inl rfl⟩
    · obtain ⟨t, ht, hs, hv⟩ := loadRegs_fault count 0 (Config.memSize - s.i.toNat) s (by omega) (by omega)
        (by omega) (by omega)
      exact ⟨t, hs, fun j hj => by rw [hv, if_neg (by omega)], .inr ⟨Config.memSize - s.i.toNat, by omega, by omega, by simpa using ht⟩⟩

end Sys2Proof.Machine
end

