-- ==== Sys2Proof/Laws/Display.lean ====
section
/-! SUPPORT. Laws of the framebuffer, and what the two drawing loops can do. -/

namespace Sys2Proof.Machine

/-! ### Pixels -/

/-- A pixel reads as what was last written to it, and as before elsewhere. -/
theorem Framebuffer.pix_setPix (fb : Framebuffer) {x y : Nat} (hx : x < 64) (hy : y < 32) (b : Bool) (x' y' : Nat) :
    (fb.setPix x y b).pix x' y' = if x' = x ∧ y' = y then b else fb.pix x' y' := by
  unfold Framebuffer.setPix
  rw [dif_pos ⟨hx, hy⟩]
  unfold Framebuffer.pix
  by_cases h : x' < 64 ∧ y' < 32
  · simp only [dif_pos h, Vector.getElem_set]
    by_cases h1 : y = y'
    · subst h1
      by_cases h2 : x = x'
      · subst h2; simp
      · simp [h2, show ¬ x' = x from fun e => h2 e.symm]
    · simp [h1, show ¬ y' = y from fun e => h1 e.symm]
  · rw [dif_neg h, if_neg (by omega), dif_neg h]

@[simp] theorem Framebuffer.pix_clear (x y : Nat) : Framebuffer.clear.pix x y = false := by
  unfold Framebuffer.pix Framebuffer.clear
  split <;> simp

/-- Framebuffers with the same pixels are equal (40_display.md R76). -/
theorem Framebuffer.ext_pix {fb fb' : Framebuffer} (h : ∀ x y, x < 64 → y < 32 → fb.pix x y = fb'.pix x y) : fb = fb' := by
  apply Vector.ext
  intro y hy
  apply Vector.ext
  intro x hx
  have := h x y hx hy
  simpa only [Framebuffer.pix, dif_pos (And.intro hx hy)] using this

@[simp] theorem lastIndex_x : lastIndex Config.clipLastPixelDrawn Config.displayW = 63 := rfl
@[simp] theorem lastIndex_y : lastIndex Config.clipLastPixelDrawn Config.displayH = 31 := rfl

/-! ### One sprite row -/

/-- Is pixel column `px` covered by a 1-bit of columns `col .. col + k - 1` of a sprite row drawn at `x0`? -/
def rowBit (x0 : Nat) (sprite : Byte) (col k px : Nat) : Bool :=
  decide (x0 + col ≤ px) && decide (px < x0 + col + k) && sprite.getLsbD (7 - (px - x0))

/-- `t` differs from `s` in the framebuffer and VF only. -/
def DrawFrame (s t : State) : Prop := ∃ (fb : Framebuffer) (vf : Byte), t = (s.setFb fb).writeV regVF vf

theorem DrawFrame.refl (s : State) : DrawFrame s s :=
  ⟨s.fb, s.readV regVF, by simp [State.writeV, State.setV, State.setFb, State.readV]⟩

theorem DrawFrame.trans {s t u : State} (h : DrawFrame s t) (h' : DrawFrame t u) : DrawFrame s u := by
  obtain ⟨fb, vf, rfl⟩ := h
  obtain ⟨fb', vf', rfl⟩ := h'
  exact ⟨fb', vf', by simp [State.writeV, State.setV, State.setFb]⟩

theorem DrawFrame.setFb (s : State) (fb : Framebuffer) : DrawFrame s (s.setFb fb) :=
  ⟨fb, s.readV regVF, by simp [State.writeV, State.setV, State.setFb, State.readV]⟩

theorem DrawFrame.writeVF (s : State) (vf : Byte) : DrawFrame s (s.writeV regVF vf) := ⟨s.fb, vf, rfl⟩

/-- What one sprite row leaves alone: everything but the framebuffer and VF. -/
theorem drawCols_frame (lastX x0 py : Nat) (sprite : Byte) (k col : Nat) (s : State) :
    DrawFrame s (drawCols lastX x0 py sprite k col s) := by
  induction k generalizing col s with
  | zero => exact DrawFrame.refl s
  | succ k ih =>
    rw [drawCols]
    split
    · exact DrawFrame.refl s
    · refine DrawFrame.trans ?_ (ih _ _)
      refine DrawFrame.trans ?_ (DrawFrame.setFb _ _)
      split
      · exact DrawFrame.writeVF s 1
      · exact DrawFrame.refl s

/-- The pixels after one sprite row: XOR with the row's 1-bits, on columns that exist. -/
theorem drawCols_pix {x0 py : Nat} (sprite : Byte) (hy : py < 32) (k col : Nat) (s : State) (px qy : Nat)
    (hp : px < 64) :
    (drawCols 63 x0 py sprite k col s).fb.pix px qy =
      (s.fb.pix px qy ^^ (decide (qy = py) && rowBit x0 sprite col k px)) := by
  induction k generalizing col s with
  | zero =>
    have : rowBit x0 sprite col 0 px = false := by simp only [rowBit, Bool.and_eq_false_iff, decide_eq_false_iff_not]; omega
    simp [drawCols, this]
  | succ k ih =>
    rw [drawCols]
    split
    · have : rowBit x0 sprite col (k + 1) px = false := by
        simp only [rowBit, Bool.and_eq_false_iff, decide_eq_false_iff_not]; omega
      simp [this]
    · next hlast =>
      have hrow : rowBit x0 sprite col (k + 1) px =
          if px = x0 + col then sprite.getLsbD (7 - col) else rowBit x0 sprite (col + 1) k px := by
        unfold rowBit
        split
        · next e => subst e; simp
        · congr 2 <;> simp only [decide_eq_decide] <;> omega
      have hnext : px = x0 + col → rowBit x0 sprite (col + 1) k px = false := by
        intro e
        simp only [rowBit, Bool.and_eq_false_iff, decide_eq_false_iff_not]; omega
      simp only [ih, State.setFb_fb]
      have hfb : ∀ c : Bool, (if c then s.writeV regVF 1 else s).fb = s.fb := by intro c; cases c <;> rfl
      rw [hfb, Framebuffer.pix_setPix _ (by omega) hy, hrow]
      by_cases h1 : px = x0 + col
      · by_cases h2 : qy = py
        · rw [if_pos ⟨h1, h2⟩, if_pos h1, hnext h1, h1, h2]; simp
        · rw [if_neg (fun h => h2 h.2), decide_eq_false h2]; simp
      · rw [if_neg (fun h => h1 h.1), if_neg h1]

/-- VF after one sprite row: 1 on a collision, else as before. -/
theorem drawCols_vf {x0 py : Nat} (sprite : Byte) (hy : py < 32) (k col : Nat) (s : State) :
    ((∃ px, px < 64 ∧ rowBit x0 sprite col k px = true ∧ s.fb.pix px py = true) →
      (drawCols 63 x0 py sprite k col s).readV regVF = 1) ∧
    ((¬ ∃ px, px < 64 ∧ rowBit x0 sprite col k px = true ∧ s.fb.pix px py = true) →
      (drawCols 63 x0 py sprite k col s).readV regVF = s.readV regVF) := by
  have hstep : ∀ (k col px : Nat), rowBit x0 sprite col (k + 1) px =
      if px = x0 + col then sprite.getLsbD (7 - col) else rowBit x0 sprite (col + 1) k px := by
    intro k col px
    unfold rowBit
    split
    · next e => subst e; simp
    · congr 2 <;> simp only [decide_eq_decide] <;> omega
  have keep : ∀ (k col : Nat) (s : State), s.readV regVF = 1 → (drawCols 63 x0 py sprite k col s).readV regVF = 1 := by
    intro k
    induction k with
    | zero => exact fun _ _ h => h
    | succ k ih =>
      intro col s h
      rw [drawCols]
      split
      · exact h
      · refine ih _ _ ?_
        simp only [State.readV_setFb]
        split
        · simp
        · exact h
  induction k generalizing col s with
  | zero =>
    refine ⟨fun ⟨px, _, h, _⟩ => ?_, fun _ => rfl⟩
    simp only [rowBit, Bool.and_eq_true, decide_eq_true_eq] at h
    omega
  | succ k ih =>
    rw [drawCols]
    split
    · next hlast =>
      refine ⟨fun ⟨px, hpx, h, _⟩ => ?_, fun _ => rfl⟩
      simp only [rowBit, Bool.and_eq_true, decide_eq_true_eq] at h
      omega
    · next hlast =>
      simp only
      by_cases hc : (sprite.getLsbD (7 - col) && s.fb.pix (x0 + col) py) = true
      · rw [if_pos hc]
        have h1 := keep k (col + 1) ((s.writeV regVF 1).setFb ((s.writeV regVF 1).fb.setPix (x0 + col) py
          (s.fb.pix (x0 + col) py ^^ sprite.getLsbD (7 - col)))) (by simp)
        refine ⟨fun _ => h1, fun hn => absurd ⟨x0 + col, by omega, ?_, ?_⟩ hn⟩
        · rw [hstep, if_pos rfl]; exact (Bool.and_eq_true _ _ ▸ hc).1
        · exact (Bool.and_eq_true _ _ ▸ hc).2
      · rw [if_neg hc]
        have hiff : (∃ px, px < 64 ∧ rowBit x0 sprite col (k + 1) px = true ∧ s.fb.pix px py = true) ↔
            (∃ px, px < 64 ∧ rowBit x0 sprite (col + 1) k px = true ∧
              (s.setFb (s.fb.setPix (x0 + col) py
                (s.fb.pix (x0 + col) py ^^ sprite.getLsbD (7 - col)))).fb.pix px py = true) := by
          constructor
          · rintro ⟨px, hpx, hb, hon⟩
            rw [hstep] at hb
            by_cases e : px = x0 + col
            · rw [if_pos e] at hb
              exact absurd (by rw [hb, ← e, hon]; rfl) hc
            · rw [if_neg e] at hb
              refine ⟨px, hpx, hb, ?_⟩
              rw [State.setFb_fb, Framebuffer.pix_setPix _ (by omega) hy, if_neg (by omega)]
              exact hon
          · rintro ⟨px, hpx, hb, hon⟩
            have hne : px ≠ x0 + col := by
              intro e
              simp only [rowBit, Bool.and_eq_true, decide_eq_true_eq] at hb
              omega
            rw [State.setFb_fb, Framebuffer.pix_setPix _ (by omega) hy, if_neg (by omega)] at hon
            exact ⟨px, hpx, by rw [hstep, if_neg hne]; exact hb, hon⟩
        rw [hiff]
        exact ih (col + 1) _

/-! ### All rows -/

/-- Is pixel `(px, py)` covered by a 1-bit of rows `row .. row + k - 1` of the sprite at `I`, drawn at `(x0, y0)`? -/
def rowsBit (s : State) (x0 y0 row k px py : Nat) : Bool :=
  decide (x0 ≤ px) && decide (px < x0 + 8) && decide (y0 + row ≤ py) && decide (py < y0 + row + k) &&
    (s.mem.read (s.i.toNat + (py - y0))).getLsbD (7 - (px - x0))

theorem rowsBit_zero (s : State) (x0 y0 n px py : Nat) : rowsBit s x0 y0 0 n px py = spriteBit s x0 y0 n px py := by
  simp [spriteBit, rowsBit]

/-- The first row, or one of the rows after it. -/
theorem rowsBit_succ (s : State) (x0 y0 row k px py : Nat) :
    rowsBit s x0 y0 row (k + 1) px py =
      ((decide (py = y0 + row) && rowBit x0 (s.mem.read (s.i.toNat + row)) 0 8 px) ||
        rowsBit s x0 y0 (row + 1) k px py) := by
  simp only [rowsBit, rowBit, Nat.add_zero]
  by_cases h : py = y0 + row
  · subst h
    rw [show y0 + row - y0 = row by omega, show decide (y0 + (row + 1) ≤ y0 + row) = false by simp]
    simp
  · rw [show decide (y0 + row ≤ py) = decide (y0 + (row + 1) ≤ py) by simp only [decide_eq_decide]; omega,
      show decide (py < y0 + row + (k + 1)) = decide (py < y0 + (row + 1) + k) by simp only [decide_eq_decide]; omega]
    simp [h]

/-- Rows below the display cover no pixel of it. -/
theorem rowsBit_eq_false {s : State} {x0 y0 row k px py : Nat} (h : k = 0 ∨ 31 < y0 + row) (hpy : py < 32) :
    rowsBit s x0 y0 row k px py = false := by
  simp only [rowsBit, Bool.and_eq_false_iff, decide_eq_false_iff_not]
  omega

/-- A pixel of the first row is none of the rows after it. -/
theorem rowsBit_disjoint {s : State} {x0 y0 row k px py : Nat} {sprite : Byte}
    (h : (decide (py = y0 + row) && rowBit x0 sprite 0 8 px) = true) : rowsBit s x0 y0 (row + 1) k px py = false := by
  simp only [Bool.and_eq_true, decide_eq_true_eq] at h
  simp only [rowsBit, Bool.and_eq_false_iff, decide_eq_false_iff_not]
  omega

/-- What `t` is to `s` after rows `row .. row + k - 1`: XORed pixels, VF on a collision. -/
def DrawnRows (x0 y0 row k : Nat) (s t : State) : Prop :=
  DrawFrame s t ∧
  (∀ px py, px < 64 → py < 32 → t.fb.pix px py = (s.fb.pix px py ^^ rowsBit s x0 y0 row k px py)) ∧
  ((∃ px py, px < 64 ∧ py < 32 ∧ rowsBit s x0 y0 row k px py = true ∧ s.fb.pix px py = true) → t.readV 15 = 1) ∧
  ((¬ ∃ px py, px < 64 ∧ py < 32 ∧ rowsBit s x0 y0 row k px py = true ∧ s.fb.pix px py = true) →
    t.readV 15 = s.readV 15)

/-- No row left, or none on the display: nothing is drawn. -/
theorem DrawnRows.stop {x0 y0 row k : Nat} (s : State) (h : k = 0 ∨ 31 < y0 + row) : DrawnRows x0 y0 row k s s := by
  refine ⟨DrawFrame.refl s, fun px py _ hpy => by rw [rowsBit_eq_false h hpy]; simp, ?_, fun _ => rfl⟩
  rintro ⟨px, py, _, hpy, hb, _⟩
  rw [rowsBit_eq_false h hpy] at hb
  cases hb

/-- One row drawn, then the rows after it. -/
theorem DrawnRows.succ {x0 y0 row k : Nat} {s t : State} (hrow : y0 + row < 32)
    (h : DrawnRows x0 y0 (row + 1) k (drawCols 63 x0 (y0 + row) (s.mem.read (s.i.toNat + row)) 8 0 s) t) :
    DrawnRows x0 y0 row (k + 1) s t := by
  have hf := drawCols_frame 63 x0 (y0 + row) (s.mem.read (s.i.toNat + row)) 8 0 s
  have hp := drawCols_pix (x0 := x0) (s.mem.read (s.i.toNat + row)) hrow 8 0 s
  have hv := drawCols_vf (x0 := x0) (s.mem.read (s.i.toNat + row)) hrow 8 0 s
  have hsplit := rowsBit_succ s x0 y0 row k
  generalize s.mem.read (s.i.toNat + row) = sp at h hf hp hv hsplit
  generalize drawCols 63 x0 (y0 + row) sp 8 0 s = s1 at h hf hp hv
  have hbit : ∀ px py, rowsBit s1 x0 y0 (row + 1) k px py = rowsBit s x0 y0 (row + 1) k px py := by
    obtain ⟨_, _, rfl⟩ := hf
    exact fun _ _ => rfl
  obtain ⟨hft, hpt, hv1, hv0⟩ := h
  simp only [hbit] at hpt hv1 hv0
  refine ⟨hf.trans hft, fun px py hpx hpy => ?_, ?_, ?_⟩
  · rw [hpt px py hpx hpy, hp px py hpx, hsplit]
    cases h1 : (decide (py = y0 + row) && rowBit x0 sp 0 8 px)
    · simp
    · rw [rowsBit_disjoint h1]; simp
  · rintro ⟨px, py, hpx, hpy, hb, hon⟩
    by_cases hex : ∃ px py, px < 64 ∧ py < 32 ∧ rowsBit s x0 y0 (row + 1) k px py = true ∧ s1.fb.pix px py = true
    · exact hv1 hex
    · rw [hv0 hex]
      rw [hsplit, Bool.or_eq_true] at hb
      rcases hb with hb | hb
      · simp only [Bool.and_eq_true, decide_eq_true_eq] at hb
        obtain ⟨rfl, hb⟩ := hb
        exact hv.1 ⟨px, hpx, hb, hon⟩
      · refine absurd ⟨px, py, hpx, hpy, hb, ?_⟩ hex
        rw [hp px py hpx, hon]
        cases h1 : (decide (py = y0 + row) && rowBit x0 sp 0 8 px)
        · rfl
        · rw [rowsBit_disjoint h1] at hb; cases hb
  · intro hno
    have h1 : ¬ ∃ px, px < 64 ∧ rowBit x0 sp 0 8 px = true ∧ s.fb.pix px (y0 + row) = true := by
      rintro ⟨px, hpx, hb, hon⟩
      exact hno ⟨px, y0 + row, hpx, hrow, by rw [hsplit, hb]; simp, hon⟩
    have h2 : ¬ ∃ px py, px < 64 ∧ py < 32 ∧ rowsBit s x0 y0 (row + 1) k px py = true ∧ s1.fb.pix px py = true := by
      rintro ⟨px, py, hpx, hpy, hb, hon⟩
      refine hno ⟨px, py, hpx, hpy, by rw [hsplit, hb]; simp, ?_⟩
      rw [hp px py hpx] at hon
      cases hh : (decide (py = y0 + row) && rowBit x0 sp 0 8 px)
      · rw [hh] at hon; simpa using hon
      · rw [rowsBit_disjoint hh] at hb; cases hb
    rw [hv0 h2]
    exact hv.2 h1

/-- The rows of a draw whose bytes all exist. -/
theorem drawRows_ok (x0 y0 k row : Nat) (s : State)
    (hr : ∀ r, row ≤ r → r < row + k → y0 + r < 32 → s.i.toNat + r < Config.memSize) :
    ∃ t, drawRows 63 31 x0 y0 k row s = .next t ∧ DrawnRows x0 y0 row k s t := by
  induction k generalizing row s with
  | zero => exact ⟨s, rfl, DrawnRows.stop s (.inl rfl)⟩
  | succ k ih =>
    rw [drawRows]
    by_cases hl : 31 < y0 + row
    · rw [if_pos hl]
      exact ⟨s, rfl, DrawnRows.stop s (.inr hl)⟩
    · rw [if_neg hl, memRead_ok (hr row (Nat.le_refl _) (by omega) (by omega))]
      have hi : (drawCols 63 x0 (y0 + row) (s.mem.read (s.i.toNat + row)) 8 0 s).i = s.i := by
        obtain ⟨_, _, e⟩ := drawCols_frame 63 x0 (y0 + row) (s.mem.read (s.i.toNat + row)) 8 0 s
        rw [e]
        rfl
      obtain ⟨t, ht, h⟩ := ih (row + 1) (drawCols 63 x0 (y0 + row) (s.mem.read (s.i.toNat + row)) 8 0 s)
        (by intro r h1 h2 h3; rw [hi]; exact hr r (by omega) (by omega) h3)
      exact ⟨t, ht, DrawnRows.succ (by omega) h⟩

/-- A draw whose row `row + r` is the first on the display with its byte above the address space: the rows before it are
drawn. -/
theorem drawRows_fault (x0 y0 n r row : Nat) (s : State) (hr : r < n) (hy : y0 + row + r < 32)
    (hin : ∀ q, q < r → s.i.toNat + row + q < Config.memSize) (hout : Config.memSize ≤ s.i.toNat + row + r) :
    ∃ t, drawRows 63 31 x0 y0 r row s = .next t ∧ DrawFrame s t ∧
      drawRows 63 31 x0 y0 n row s = .next (t.raise (.memoryOutOfRange (s.i.toNat + row + r))) := by
  induction r generalizing n row s with
  | zero =>
    obtain ⟨n, rfl⟩ : ∃ c, n = c + 1 := ⟨n - 1, by omega⟩
    refine ⟨s, rfl, DrawFrame.refl s, ?_⟩
    rw [drawRows, if_neg (by omega), memRead_error (by omega)]
    rfl
  | succ r ih =>
    obtain ⟨n, rfl⟩ : ∃ c, n = c + 1 := ⟨n - 1, by omega⟩
    have h0 := hin 0 (by omega)
    have hf := drawCols_frame 63 x0 (y0 + row) (s.mem.read (s.i.toNat + row)) 8 0 s
    have hi : (drawCols 63 x0 (y0 + row) (s.mem.read (s.i.toNat + row)) 8 0 s).i = s.i := by
      obtain ⟨_, _, e⟩ := hf
      rw [e]
      rfl
    obtain ⟨t, ht, hft, he⟩ := ih n (row + 1) (drawCols 63 x0 (y0 + row) (s.mem.read (s.i.toNat + row)) 8 0 s)
      (by omega) (by omega) (by intro q hq; rw [hi]; have := hin (q + 1) (by omega); omega) (by rw [hi]; omega)
    refine ⟨t, ?_, hf.trans hft, ?_⟩
    · rw [drawRows, if_neg (by omega), memRead_ok (by omega)]
      exact ht
    · rw [drawRows, if_neg (by omega), memRead_ok (by omega)]
      refine he.trans ?_
      rw [hi, show s.i.toNat + (row + 1) + r = s.i.toNat + row + (r + 1) by omega]

/-- All a draw of this hardware can do: it ends, or its first unreadable row raises; framebuffer, VF and latch apart it
changes nothing. -/
theorem drawRows_effect (x0 y0 k row : Nat) (s : State) :
    ∃ t, DrawFrame s t ∧ (drawRows 63 31 x0 y0 k row s = .next t ∨
      ∃ j, j < k ∧ Config.memSize ≤ s.i.toNat + row + j ∧
        drawRows 63 31 x0 y0 k row s = .next (t.raise (.memoryOutOfRange (s.i.toNat + row + j)))) := by
  by_cases h : ∀ r, row ≤ r → r < row + k → y0 + r < 32 → s.i.toNat + r < Config.memSize
  · obtain ⟨t, ht, hd⟩ := drawRows_ok x0 y0 k row s h
    exact ⟨t, hd.1, .inl ht⟩
  · obtain ⟨r, h1, h2, h3, h4⟩ : ∃ r, row ≤ r ∧ r < row + k ∧ y0 + r < 32 ∧ Config.memSize ≤ s.i.toNat + r := by
      simp only [not_forall, Nat.not_lt] at h
      obtain ⟨r, h1, h2, h3, h4⟩ := h
      exact ⟨r, h1, h2, h3, h4⟩
    by_cases h5 : Config.memSize ≤ s.i.toNat + row
    · obtain ⟨t, _, hf, he⟩ := drawRows_fault x0 y0 k 0 row s (by omega) (by omega) (by omega) (by omega)
      exact ⟨t, hf, .inr ⟨0, by omega, by omega, he⟩⟩
    · obtain ⟨t, _, hf, he⟩ := drawRows_fault x0 y0 k (Config.memSize - s.i.toNat - row) row s (by omega) (by omega)
        (by omega) (by omega)
      exact ⟨t, hf, .inr ⟨Config.memSize - s.i.toNat - row, by omega, by omega, he⟩⟩

end Sys2Proof.Machine
end

