-- ==== Sys2Proof/Laws/Ops.lean ====
section
/-! SUPPORT. What each shared operation can do: stack, skips, flags, random draw, fetch, frames. -/

namespace Sys2Proof.Machine

/-! ### Call stack -/

/-- SP counts at most the 16 entries. -/
theorem State.sp_le (s : State) : s.sp.val ≤ 16 := Nat.le_of_lt_succ s.sp.isLt

theorem push_ok {s : State} (w : Word) (h : s.sp.val < 16) :
    push s w = .ok (s.setStack (s.stack.set s.sp.val w) ⟨s.sp.val + 1, Nat.succ_lt_succ h⟩) := by
  simp only [push, Config.stackDepth, dif_pos h]

theorem push_full {s : State} (w : Word) (h : s.sp.val = 16) : push s w = .error (.stackOverflow 16) := by
  simp [push, h]

theorem pop_ok {s : State} (h : 0 < s.sp.val) :
    pop s = .ok (s.stack[s.sp.val - 1], s.setStack s.stack ⟨s.sp.val - 1, by omega⟩) := by
  simp only [pop, dif_pos h]

theorem pop_empty {s : State} (h : s.sp.val = 0) : pop s = .error (.stackUnderflow 0) := by
  simp [pop, h]

/-- All `execRet` can do. -/
theorem execRet_cases (s : State) :
    (∃ h : 0 < s.sp.val, execRet s =
      .next ((s.setStack s.stack ⟨s.sp.val - 1, by omega⟩).setPc s.stack[s.sp.val - 1])) ∨
    (s.sp.val = 0 ∧ execRet s = .next (s.raise (.stackUnderflow 0))) := by
  by_cases h : 0 < s.sp.val
  · exact .inl ⟨h, by simp only [execRet, pop_ok h]⟩
  · exact .inr ⟨by omega, by simp only [execRet, pop_empty (show s.sp.val = 0 by omega)]⟩

/-- All `execCall` can do. -/
theorem execCall_cases (nnn : Addr12) (s : State) :
    (∃ h : s.sp.val < 16, execCall nnn s =
      .next ((s.setStack (s.stack.set s.sp.val s.pc) ⟨s.sp.val + 1, Nat.succ_lt_succ h⟩).setPc (absAddress nnn))) ∨
    (s.sp.val = 16 ∧ execCall nnn s = .next (s.raise (.stackOverflow 16))) := by
  by_cases h : s.sp.val < 16
  · exact .inl ⟨h, by simp only [execCall, push_ok s.pc h]⟩
  · have h16 : s.sp.val = 16 := by have := s.sp_le; omega
    exact .inr ⟨h16, by simp only [execCall, push_full s.pc h16]⟩

/-! ### Program counter -/

theorem pcPlus2_eq {pc : Word} (h : pc.toNat + 2 < 2 ^ 16) : pcPlus2 pc = pc + 2 := if_pos h

theorem toNat_pcPlus2 {pc : Word} (h : pc.toNat + 2 < 2 ^ 16) : (pcPlus2 pc).toNat = pc.toNat + 2 := by
  rw [pcPlus2_eq h, BitVec.toNat_add]
  exact Nat.mod_eq_of_lt h

/-- A skip writes PC and nothing else. -/
theorem skipIf_eq (c : Bool) (s : State) : skipIf c s = s.setPc (if c then pcPlus2 s.pc else s.pc) := by
  cases c <;> rfl

theorem toNat_absAddress (nnn : Addr12) : (absAddress nnn).toNat = nnn.toNat := by
  have h : nnn.toNat < 4096 := nnn.isLt
  simp only [absAddress, BitVec.toNat_setWidth]
  omega

theorem toNat_jumpV0Target (nnn : Addr12) (s : State) :
    (jumpV0Target nnn s).toNat = nnn.toNat + (s.readV 0).toNat := by
  have h : nnn.toNat < 4096 := nnn.isLt
  have h' : (s.readV 0).toNat < 256 := (s.readV 0).isLt
  simp only [jumpV0Target, Config.pcWidth, BitVec.toNat_ofNat]
  omega

theorem toNat_glyphAddress (b : Byte) : (glyphAddress b).toNat = 0x050 + 5 * b.toNat := by
  have h : b.toNat < 256 := b.isLt
  simp only [glyphAddress, Config.fontStart, Config.glyphBytes, Config.iWidth, BitVec.toNat_ofNat]
  omega

/-! ### Register blocks -/

@[simp] theorem length_regBlock (s : State) (x : RegIdx) : (regBlock s x).length = x.val + 1 := by
  simp [regBlock]

theorem getElem_regBlock (s : State) (x j : RegIdx) (h : j.val < (regBlock s x).length) :
    (regBlock s x)[j.val] = s.readV j := by
  simp [regBlock, State.readV]

theorem mem_vBelow (j : RegIdx) (count : Nat) : Part.v j ∈ vBelow count ↔ j.val < count := by
  simp [vBelow]

/-! ### Flags -/

theorem flagByte_cases (f : Bool) : flagByte f = 0 ∨ flagByte f = 1 := by cases f <;> simp [flagByte]

/-- A flag-writing instruction writes V registers and nothing else. -/
theorem writeFlagged_frame (o : Config.VFWriteOrder) (res : Byte → Byte → Byte) (fl : Byte → Byte → Bool) (x y : RegIdx)
    (s : State) : ∃ a b : RegIdx × Byte, writeFlagged o res fl x y s = (s.writeV a.1 a.2).writeV b.1 b.2 ∧
      (a.1 = x ∨ a.1 = regVF) ∧ (b.1 = x ∨ b.1 = regVF) := by
  cases o
  · exact ⟨(x, _), (regVF, _), rfl, .inl rfl, .inr rfl⟩
  · exact ⟨(regVF, _), (x, _), rfl, .inr rfl, .inl rfl⟩
  · exact ⟨(regVF, _), (x, _), rfl, .inr rfl, .inl rfl⟩

/-- A register after a flag-writing instruction of this hardware: VF holds the flag, Vx the result unless x is F. -/
theorem readV_writeFlagged (res : Byte → Byte → Byte) (fl : Byte → Byte → Bool) (x y j : RegIdx) (s : State) :
    (writeFlagged Config.vfWriteOrder res fl x y s).readV j =
      if j = regVF then flagByte (fl (s.readV x) (s.readV y))
      else if j = x then res (s.readV x) (s.readV y) else s.readV j := by
  show ((s.writeV x (res (s.readV x) (s.readV y))).writeV regVF (flagByte (fl (s.readV x) (s.readV y)))).readV j = _
  rw [State.readV_writeV, State.readV_writeV]

/-- VF ends holding the flag, whatever x and y are. -/
theorem readV_writeFlagged_vf (res : Byte → Byte → Byte) (fl : Byte → Byte → Bool) (x y : RegIdx) (s : State) :
    (writeFlagged Config.vfWriteOrder res fl x y s).readV 15 = flagByte (fl (s.readV x) (s.readV y)) := by
  rw [readV_writeFlagged, if_pos rfl]

/-- Vx ends holding the result, unless x is F. -/
theorem readV_writeFlagged_x (res : Byte → Byte → Byte) (fl : Byte → Byte → Bool) {x : RegIdx} (y : RegIdx) (s : State)
    (h : x ≠ 15) : (writeFlagged Config.vfWriteOrder res fl x y s).readV x = res (s.readV x) (s.readV y) := by
  rw [readV_writeFlagged, if_neg h, if_pos rfl]

/-! ### Random draw -/

/-- A draw writes the random source and nothing else. -/
theorem drawRand_frame (s : State) : (drawRand s).2 = s.setRand s.randQueue.tail (s.randDrawn + 1) := by
  unfold drawRand
  split
  · next h => rw [h]; rfl
  · next h => rw [h]; rfl

theorem drawRand_cons {s : State} {r : Byte} {rest : List Byte} (h : s.randQueue = r :: rest) : (drawRand s).1 = r := by
  simp [drawRand, h]

/-! ### Fetch -/

theorem fetchWord_ok {s : State} (h : s.pc.toNat + 1 < Config.memSize) :
    fetchWord s = .ok (wordOfBytes (s.mem.read s.pc.toNat) (s.mem.read (s.pc.toNat + 1))) := by
  simp only [fetchWord, memRead_ok h, memRead_ok (show s.pc.toNat < Config.memSize by omega)]

/-- All a fetch can do. -/
theorem fetchWord_cases (s : State) :
    (s.pc.toNat + 1 < Config.memSize ∧
      fetchWord s = .ok (wordOfBytes (s.mem.read s.pc.toNat) (s.mem.read (s.pc.toNat + 1)))) ∨
    (s.pc.toNat + 1 = Config.memSize ∧ fetchWord s = .error (.memoryOutOfRange (s.pc.toNat + 1))) ∨
    (Config.memSize ≤ s.pc.toNat ∧ fetchWord s = .error (.memoryOutOfRange s.pc.toNat)) := by
  by_cases h : s.pc.toNat + 1 < Config.memSize
  · exact .inl ⟨h, fetchWord_ok h⟩
  · by_cases h' : Config.memSize ≤ s.pc.toNat
    · exact .inr (.inr ⟨h', by simp only [fetchWord, memRead_error h']⟩)
    · refine .inr (.inl ⟨by omega, ?_⟩)
      simp only [fetchWord, memRead_ok (show s.pc.toNat < Config.memSize by omega),
        memRead_error (show Config.memSize ≤ s.pc.toNat + 1 by omega)]

/-- All a `Step` can do: nothing once faulted; a fetch fault with PC kept; an unsupported word with PC advanced; or the
decoded instruction with PC advanced. -/
theorem step_cases (s : State) :
    (∃ f, s.status = .faulted f ∧ step s = .fault f) ∨
    (s.status = .running ∧ Config.memSize ≤ s.pc.toNat ∧
      step s = .next (s.begun.raise (.memoryOutOfRange s.pc.toNat))) ∨
    (s.status = .running ∧ s.pc.toNat + 1 = Config.memSize ∧
      step s = .next (s.begun.raise (.memoryOutOfRange (s.pc.toNat + 1)))) ∨
    (s.status = .running ∧ s.pc.toNat + 1 < Config.memSize ∧ ∃ w,
      w = wordOfBytes (s.mem.read s.pc.toNat) (s.mem.read (s.pc.toNat + 1)) ∧
      ((decode w = none ∧ step s = .next (s.begun.advance.raise (.unsupportedInstruction w))) ∨
        ∃ i, decode w = some i ∧ step s = exec i s.begun.advance)) := by
  cases hs : s.status with
  | faulted f => exact .inl ⟨f, rfl, by simp only [step, whenRunning, hs]⟩
  | running =>
    rcases fetchWord_cases s with ⟨hpc, hf⟩ | ⟨hpc, hf⟩ | ⟨hpc, hf⟩
    · refine .inr (.inr (.inr ⟨rfl, hpc, _, rfl, ?_⟩))
      cases hd : decode (wordOfBytes (s.mem.read s.pc.toNat) (s.mem.read (s.pc.toNat + 1))) with
      | none => exact .inl ⟨rfl, by simp only [step, whenRunning, hs, fetchDecodeExec, hf, decodeExec, hd]⟩
      | some i => exact .inr ⟨i, rfl, by simp only [step, whenRunning, hs, fetchDecodeExec, hf, decodeExec, hd]⟩
    · exact .inr (.inr (.inl ⟨rfl, hpc, by simp only [step, whenRunning, hs, fetchDecodeExec, hf]⟩))
    · exact .inr (.inl ⟨rfl, hpc, by simp only [step, whenRunning, hs, fetchDecodeExec, hf]⟩)

/-! ### Frames -/

theorem keepsAllBut_refl (parts : List Part) (s : State) : KeepsAllBut parts s s :=
  ⟨fun _ _ => rfl, fun _ => rfl, fun _ => rfl, fun _ => ⟨rfl, rfl⟩, fun _ => rfl, rfl, fun _ _ _ _ _ => rfl,
    fun _ _ => rfl, fun _ => ⟨rfl, rfl⟩, rfl⟩

theorem keepsAllBut_writeV (s : State) (x : RegIdx) (b : Byte) : KeepsAllBut [.v x] s (s.writeV x b) :=
  ⟨fun j h => State.readV_writeV_ne s b (by simpa using h), fun _ => rfl, fun _ => rfl, fun _ => ⟨rfl, rfl⟩, fun _ => rfl,
    rfl, fun _ _ _ _ _ => rfl, fun _ _ => rfl, fun _ => ⟨rfl, rfl⟩, rfl⟩

theorem keepsAllBut_setPc (s : State) (w : Word) : KeepsAllBut [.pc] s (s.setPc w) :=
  ⟨fun _ _ => rfl, fun _ => rfl, fun h => absurd (List.mem_singleton.2 rfl) h, fun _ => ⟨rfl, rfl⟩, fun _ => rfl, rfl,
    fun _ _ _ _ _ => rfl, fun _ _ => rfl, fun _ => ⟨rfl, rfl⟩, rfl⟩

theorem keepsAllBut_setI (s : State) (w : Word) : KeepsAllBut [.i] s (s.setI w) :=
  ⟨fun _ _ => rfl, fun h => absurd (List.mem_singleton.2 rfl) h, fun _ => rfl, fun _ => ⟨rfl, rfl⟩, fun _ => rfl, rfl,
    fun _ _ _ _ _ => rfl, fun _ _ => rfl, fun _ => ⟨rfl, rfl⟩, rfl⟩

theorem keepsAllBut_setMem (s : State) (m : Memory) : KeepsAllBut [.mem] s (s.setMem m) :=
  ⟨fun _ _ => rfl, fun _ => rfl, fun _ => rfl, fun _ => ⟨rfl, rfl⟩, fun _ => rfl, rfl, fun _ _ _ _ _ => rfl,
    fun h => absurd (List.mem_singleton.2 rfl) h, fun _ => ⟨rfl, rfl⟩, rfl⟩

end Sys2Proof.Machine
end

