-- ==== Sys2Proof/Laws/Exec.lean ====
section
/-! SUPPORT. Said once: what an instruction, and what a transaction, can do. Every invariant and whole-machine rule is a
case analysis over `Effect` or `TransactEffect`. -/

namespace Sys2Proof.Machine

/-- What `t` may be after an instruction on `s`. -/
def Effect (s t : State) : Instr → Prop
  | .cls => t = s.setFb Framebuffer.clear
  | .ret => (∃ h : 0 < s.sp.val, t = (s.setStack s.stack ⟨s.sp.val - 1, by omega⟩).setPc s.stack[s.sp.val - 1]) ∨
      (s.sp.val = 0 ∧ t = s.raise (.stackUnderflow 0))
  | .jp nnn => t = s.setPc (absAddress nnn)
  | .call nnn => (∃ h : s.sp.val < 16,
      t = (s.setStack (s.stack.set s.sp.val s.pc) ⟨s.sp.val + 1, Nat.succ_lt_succ h⟩).setPc (absAddress nnn)) ∨
      (s.sp.val = 16 ∧ t = s.raise (.stackOverflow 16))
  | .seImm x kk => t = s.setPc (if s.readV x = kk then pcPlus2 s.pc else s.pc)
  | .sneImm x kk => t = s.setPc (if s.readV x ≠ kk then pcPlus2 s.pc else s.pc)
  | .seReg x y => t = s.setPc (if s.readV x = s.readV y then pcPlus2 s.pc else s.pc)
  | .sneReg x y => t = s.setPc (if s.readV x ≠ s.readV y then pcPlus2 s.pc else s.pc)
  | .jpV0 nnn => t = s.setPc (jumpV0Target nnn s)
  | .ldImm x kk => t = s.writeV x kk
  | .addImm x kk => t = s.writeV x (s.readV x + kk)
  | .ldReg x y => t = s.writeV x (s.readV y)
  | .orReg x y => t = s.writeV x (s.readV x ||| s.readV y)
  | .andReg x y => t = s.writeV x (s.readV x &&& s.readV y)
  | .xorReg x y => t = s.writeV x (s.readV x ^^^ s.readV y)
  | .addReg x y => t = (s.writeV x (s.readV x + s.readV y)).writeV 15 (flagByte (carryFlag (s.readV x) (s.readV y)))
  | .sub x y => t = (s.writeV x (s.readV x - s.readV y)).writeV 15 (flagByte (notBorrowFlag (s.readV x) (s.readV y)))
  | .shr x _ => t = (s.writeV x (s.readV x >>> 1)).writeV 15 (flagByte (shiftOutRight (s.readV x)))
  | .subn x y => t = (s.writeV x (s.readV y - s.readV x)).writeV 15 (flagByte (notBorrowFlag (s.readV y) (s.readV x)))
  | .shl x _ => t = (s.writeV x (s.readV x <<< 1)).writeV 15 (flagByte (shiftOutLeft (s.readV x)))
  | .ldI nnn => t = s.setI (absAddress nnn)
  | .addI x => t = s.setI (indexPlus s.i (s.readV x))
  | .ldF x => t = s.setI (glyphAddress (s.readV x))
  | .rnd x kk => t = (s.setRand s.randQueue.tail (s.randDrawn + 1)).writeV x ((drawRand s).1 &&& kk)
  | .drw _ _ n => ∃ u, DrawFrame s u ∧ (t = u ∨ ∃ j, j < n.val ∧ Config.memSize ≤ s.i.toNat + j ∧
      t = u.raise (.memoryOutOfRange (s.i.toNat + j)))
  | .ldVxDt x => t = s.writeV x s.dt
  | .ldDtVx x => t = s.setDt (s.readV x)
  | .ldB x => Stored (bcdDigits (s.readV x)) s t
  | .ldMemVx x => Stored (regBlock s x) s t
  | .ldVxMem x => ∃ u, u = s.setV u.v ∧ (∀ j : RegIdx, x.val < j.val → u.readV j = s.readV j) ∧
      (t = u ∨ ∃ k, k ≤ x.val ∧ Config.memSize ≤ s.i.toNat + k ∧ t = u.raise (.memoryOutOfRange (s.i.toNat + k)))
where
  /-- The bytes are stored from I on, all of them or those inside the address space. -/
  Stored (bs : List Byte) (s t : State) : Prop :=
    (s.i.toNat + bs.length ≤ Config.memSize ∧ t = s.setMem (s.mem.writeBytes s.i.toNat bs)) ∨
    ∃ k, k < bs.length ∧ (∀ j, j < k → s.i.toNat + j < Config.memSize) ∧ Config.memSize ≤ s.i.toNat + k ∧
      t = (s.setMem (s.mem.writeBytes s.i.toNat (bs.take k))).raise (.memoryOutOfRange (s.i.toNat + k))

theorem stored_of_storeBytes {bs : List Byte} (hb : bs ≠ []) (s : State) :
    ∃ t, storeBytes Config.fontWritePolicy bs (dataAddress s) s = .next t ∧ Effect.Stored bs s t := by
  rcases storeBytes_effect bs (dataAddress s) s with ⟨h | h, e⟩ | ⟨k, h1, h2, h3, e⟩
  · exact absurd h hb
  · exact ⟨_, e, .inl ⟨h, rfl⟩⟩
  · exact ⟨_, e, .inr ⟨k, h1, h2, h3, rfl⟩⟩

/-- Every instruction answers a next state, and that state is one `Effect` allows. -/
theorem exec_effect (i : Instr) (s : State) : ∃ t, exec i s = .next t ∧ Effect s t i := by
  cases i
  case ret => rcases execRet_cases s with ⟨h, e⟩ | ⟨h, e⟩; exacts [⟨_, e, .inl ⟨h, rfl⟩⟩, ⟨_, e, .inr ⟨h, rfl⟩⟩]
  case call nnn =>
    rcases execCall_cases nnn s with ⟨h, e⟩ | ⟨h, e⟩
    exacts [⟨_, e, .inl ⟨h, rfl⟩⟩, ⟨_, e, .inr ⟨h, rfl⟩⟩]
  case drw x y n =>
    obtain ⟨u, hf, h⟩ := drawRows_effect (startCol s x) (startRow s y) n.val 0 (s.writeV regVF 0)
    have hfu := (DrawFrame.writeVF s 0).trans hf
    rcases h with e | ⟨j, h1, h2, e⟩
    exacts [⟨_, e, u, hfu, .inl rfl⟩, ⟨_, e, u, hfu, .inr ⟨j, h1, h2, rfl⟩⟩]
  case ldB x => exact stored_of_storeBytes (by simp [bcdDigits]) s
  case ldMemVx x => exact stored_of_storeBytes (by intro h; have := length_regBlock s x; rw [h] at this; cases this) s
  case ldVxMem x =>
    obtain ⟨u, hu, hv, h⟩ := loadRegs_effect (x.val + 1) s (by omega)
    rcases h with e | ⟨k, h1, h2, e⟩
    exacts [⟨_, e, u, hu, fun j hj => hv j hj, .inl rfl⟩, ⟨_, e, u, hu, fun j hj => hv j hj, .inr ⟨k, by omega, h2, rfl⟩⟩]
  case rnd x kk => exact ⟨_, rfl, by simp only [Effect, drawRand_frame]⟩
  case seImm x kk => exact ⟨_, rfl, by simp only [Effect, skipIf_eq, decide_eq_true_eq]⟩
  case sneImm x kk => exact ⟨_, rfl, by simp only [Effect, skipIf_eq, decide_eq_true_eq]⟩
  case seReg x y => exact ⟨_, rfl, by simp only [Effect, skipIf_eq, decide_eq_true_eq]⟩
  case sneReg x y => exact ⟨_, rfl, by simp only [Effect, skipIf_eq, decide_eq_true_eq]⟩
  all_goals exact ⟨_, rfl, rfl⟩

/-- All an instruction can do. -/
theorem exec_cases {i : Instr} {s t : State} (h : exec i s = .next t) : Effect s t i := by
  obtain ⟨u, hu, he⟩ := exec_effect i s
  rw [hu] at h
  cases h
  exact he

/-- What `t` may be after a transaction on a running `s`. -/
def TransactEffect (s t : State) : Transaction → Prop
  | .load bytes => s.loadOpen = true ∧
      ((bytes.length ≤ Config.maxProgramLen ∧
          t = (s.setMem (s.mem.writeBytes Config.programStart bytes)).setLoadOpen false) ∨
        (Config.maxProgramLen < bytes.length ∧ t = s.raise (.loadRejected bytes.length)))
  | .step => (∃ a, Config.memSize ≤ s.pc.toNat + 1 ∧ t = s.begun.raise (.memoryOutOfRange a)) ∨
      (s.pc.toNat + 1 < Config.memSize ∧
        ((∃ w, t = s.begun.advance.raise (.unsupportedInstruction w)) ∨ ∃ i, Effect s.begun.advance t i))
  | .execute w => (decode w = none ∧ t = s.begun.raise (.unsupportedInstruction w)) ∨
      ∃ i, decode w = some i ∧ Effect s.begun t i
  | .tickDelay => t = s.setDt (tickByte s.dt)

/-- All a transaction can do: it runs on a running block only, and its next state is one `TransactEffect` allows. -/
theorem transact_cases {tr : Transaction} {s t : State} (h : transact tr s = .next t) :
    s.status = .running ∧ TransactEffect s t tr := by
  cases hs : s.status with
  | faulted f => cases tr <;> simp [transact, load, step, execute, tickDelay, whenRunning, hs] at h
  | running =>
    refine ⟨rfl, ?_⟩
    cases tr with
    | load bytes =>
      simp only [transact, load, whenRunning, hs, loadImage] at h
      split at h
      · next ho =>
        split at h
        · next hw => cases h; exact ⟨ho, .inl ⟨of_decide_eq_true hw, rfl⟩⟩
        · next hw => cases h; exact ⟨ho, .inr ⟨Nat.lt_of_not_le fun hl => hw (decide_eq_true hl), rfl⟩⟩
      · cases h
    | step =>
      simp only [transact] at h
      rcases step_cases s with ⟨f, _, e⟩ | ⟨_, hp, e⟩ | ⟨_, hp, e⟩ | ⟨_, hp, w, _, ⟨_, e⟩ | ⟨i, _, e⟩⟩ <;> rw [e] at h
      · cases h
      · cases h; exact .inl ⟨_, Nat.le_succ_of_le hp, rfl⟩
      · cases h; exact .inl ⟨_, Nat.le_of_eq hp.symm, rfl⟩
      · cases h; exact .inr ⟨hp, .inl ⟨_, rfl⟩⟩
      · exact .inr ⟨hp, .inr ⟨i, exec_cases h⟩⟩
    | execute w =>
      simp only [transact, execute, whenRunning, hs, decodeExec] at h
      cases hd : decode w with
      | none => simp only [hd] at h; cases h; exact .inl ⟨hd, rfl⟩
      | some i => simp only [hd] at h; exact .inr ⟨i, hd, exec_cases h⟩
    | tickDelay =>
      simp only [transact, tickDelay, whenRunning, hs] at h
      cases h
      rfl

end Sys2Proof.Machine
end

