-- ==== Sys2Proof/Laws/PerInstr.lean ====
section
/-! SUPPORT. The per-instruction family RowMatch: a row of R56 accepts the instruction's word and reads the instruction
back from it. -/

namespace Sys2Proof.Laws.RowMatch

/-- Some row of the opcode table accepts the instruction's word, and its fields are the instruction. -/
def Statement (i : Instr) : Prop := ∃ r ∈ opcodeTable, r.accepts (encode i) = true ∧ r.build (encode i) = i

theorem cls : Statement .cls := ⟨opcodeTable[0], List.getElem_mem _, by decide, rfl⟩

theorem ret : Statement .ret := ⟨opcodeTable[1], List.getElem_mem _, by decide, rfl⟩

theorem jp (nnn : Addr12) : Statement (.jp nnn) := by
  obtain ⟨b, c, d, rfl⟩ := exists_nibbles_addr nnn
  refine ⟨opcodeTable[2], List.getElem_mem _, ?_, ?_⟩ <;> rw [encode, encodeNNN_eq]
  · exact (accepts_F000 _ _ 0x1 _ _ _ _).trans (by simp)
  · exact congrArg Instr.jp (fieldNNN_ofNibbles _ _ _ _)

theorem call (nnn : Addr12) : Statement (.call nnn) := by
  obtain ⟨b, c, d, rfl⟩ := exists_nibbles_addr nnn
  refine ⟨opcodeTable[3], List.getElem_mem _, ?_, ?_⟩ <;> rw [encode, encodeNNN_eq]
  · exact (accepts_F000 _ _ 0x2 _ _ _ _).trans (by simp)
  · exact congrArg Instr.call (fieldNNN_ofNibbles _ _ _ _)

theorem seImm (x : RegIdx) (kk : Byte) : Statement (.seImm x kk) := by
  obtain ⟨c, d, rfl⟩ := exists_nibbles_byte kk
  refine ⟨opcodeTable[4], List.getElem_mem _, ?_, ?_⟩ <;> rw [encode, encodeXKK_eq]
  · exact (accepts_F000 _ _ 0x3 _ _ _ _).trans (by simp)
  · exact congrArg₂ Instr.seImm (fieldX_ofNibbles _ _ _ _) (fieldKK_ofNibbles _ _ _ _)

theorem sneImm (x : RegIdx) (kk : Byte) : Statement (.sneImm x kk) := by
  obtain ⟨c, d, rfl⟩ := exists_nibbles_byte kk
  refine ⟨opcodeTable[5], List.getElem_mem _, ?_, ?_⟩ <;> rw [encode, encodeXKK_eq]
  · exact (accepts_F000 _ _ 0x4 _ _ _ _).trans (by simp)
  · exact congrArg₂ Instr.sneImm (fieldX_ofNibbles _ _ _ _) (fieldKK_ofNibbles _ _ _ _)

theorem seReg (x y : RegIdx) : Statement (.seReg x y) := by
  refine ⟨opcodeTable[6], List.getElem_mem _, ?_, ?_⟩ <;> rw [encode, encodeXYS]
  · exact (accepts_F00F _ _ 0x5 0x0 _ _ _ _).trans (by simp)
  · exact congrArg₂ Instr.seReg (fieldX_ofNibbles _ _ _ _) (fieldY_ofNibbles _ _ _ _)

theorem ldImm (x : RegIdx) (kk : Byte) : Statement (.ldImm x kk) := by
  obtain ⟨c, d, rfl⟩ := exists_nibbles_byte kk
  refine ⟨opcodeTable[7], List.getElem_mem _, ?_, ?_⟩ <;> rw [encode, encodeXKK_eq]
  · exact (accepts_F000 _ _ 0x6 _ _ _ _).trans (by simp)
  · exact congrArg₂ Instr.ldImm (fieldX_ofNibbles _ _ _ _) (fieldKK_ofNibbles _ _ _ _)

theorem addImm (x : RegIdx) (kk : Byte) : Statement (.addImm x kk) := by
  obtain ⟨c, d, rfl⟩ := exists_nibbles_byte kk
  refine ⟨opcodeTable[8], List.getElem_mem _, ?_, ?_⟩ <;> rw [encode, encodeXKK_eq]
  · exact (accepts_F000 _ _ 0x7 _ _ _ _).trans (by simp)
  · exact congrArg₂ Instr.addImm (fieldX_ofNibbles _ _ _ _) (fieldKK_ofNibbles _ _ _ _)

theorem ldReg (x y : RegIdx) : Statement (.ldReg x y) := by
  refine ⟨opcodeTable[9], List.getElem_mem _, ?_, ?_⟩ <;> rw [encode, encodeXYS]
  · exact (accepts_F00F _ _ 0x8 0x0 _ _ _ _).trans (by simp)
  · exact congrArg₂ Instr.ldReg (fieldX_ofNibbles _ _ _ _) (fieldY_ofNibbles _ _ _ _)

theorem orReg (x y : RegIdx) : Statement (.orReg x y) := by
  refine ⟨opcodeTable[10], List.getElem_mem _, ?_, ?_⟩ <;> rw [encode, encodeXYS]
  · exact (accepts_F00F _ _ 0x8 0x1 _ _ _ _).trans (by simp)
  · exact congrArg₂ Instr.orReg (fieldX_ofNibbles _ _ _ _) (fieldY_ofNibbles _ _ _ _)

theorem andReg (x y : RegIdx) : Statement (.andReg x y) := by
  refine ⟨opcodeTable[11], List.getElem_mem _, ?_, ?_⟩ <;> rw [encode, encodeXYS]
  · exact (accepts_F00F _ _ 0x8 0x2 _ _ _ _).trans (by simp)
  · exact congrArg₂ Instr.andReg (fieldX_ofNibbles _ _ _ _) (fieldY_ofNibbles _ _ _ _)

theorem xorReg (x y : RegIdx) : Statement (.xorReg x y) := by
  refine ⟨opcodeTable[12], List.getElem_mem _, ?_, ?_⟩ <;> rw [encode, encodeXYS]
  · exact (accepts_F00F _ _ 0x8 0x3 _ _ _ _).trans (by simp)
  · exact congrArg₂ Instr.xorReg (fieldX_ofNibbles _ _ _ _) (fieldY_ofNibbles _ _ _ _)

theorem addReg (x y : RegIdx) : Statement (.addReg x y) := by
  refine ⟨opcodeTable[13], List.getElem_mem _, ?_, ?_⟩ <;> rw [encode, encodeXYS]
  · exact (accepts_F00F _ _ 0x8 0x4 _ _ _ _).trans (by simp)
  · exact congrArg₂ Instr.addReg (fieldX_ofNibbles _ _ _ _) (fieldY_ofNibbles _ _ _ _)

theorem sub (x y : RegIdx) : Statement (.sub x y) := by
  refine ⟨opcodeTable[14], List.getElem_mem _, ?_, ?_⟩ <;> rw [encode, encodeXYS]
  · exact (accepts_F00F _ _ 0x8 0x5 _ _ _ _).trans (by simp)
  · exact congrArg₂ Instr.sub (fieldX_ofNibbles _ _ _ _) (fieldY_ofNibbles _ _ _ _)

theorem shr (x y : RegIdx) : Statement (.shr x y) := by
  refine ⟨opcodeTable[15], List.getElem_mem _, ?_, ?_⟩ <;> rw [encode, encodeXYS]
  · exact (accepts_F00F _ _ 0x8 0x6 _ _ _ _).trans (by simp)
  · exact congrArg₂ Instr.shr (fieldX_ofNibbles _ _ _ _) (fieldY_ofNibbles _ _ _ _)

theorem subn (x y : RegIdx) : Statement (.subn x y) := by
  refine ⟨opcodeTable[16], List.getElem_mem _, ?_, ?_⟩ <;> rw [encode, encodeXYS]
  · exact (accepts_F00F _ _ 0x8 0x7 _ _ _ _).trans (by simp)
  · exact congrArg₂ Instr.subn (fieldX_ofNibbles _ _ _ _) (fieldY_ofNibbles _ _ _ _)

theorem shl (x y : RegIdx) : Statement (.shl x y) := by
  refine ⟨opcodeTable[17], List.getElem_mem _, ?_, ?_⟩ <;> rw [encode, encodeXYS]
  · exact (accepts_F00F _ _ 0x8 0xE _ _ _ _).trans (by simp)
  · exact congrArg₂ Instr.shl (fieldX_ofNibbles _ _ _ _) (fieldY_ofNibbles _ _ _ _)

theorem sneReg (x y : RegIdx) : Statement (.sneReg x y) := by
  refine ⟨opcodeTable[18], List.getElem_mem _, ?_, ?_⟩ <;> rw [encode, encodeXYS]
  · exact (accepts_F00F _ _ 0x9 0x0 _ _ _ _).trans (by simp)
  · exact congrArg₂ Instr.sneReg (fieldX_ofNibbles _ _ _ _) (fieldY_ofNibbles _ _ _ _)

theorem ldI (nnn : Addr12) : Statement (.ldI nnn) := by
  obtain ⟨b, c, d, rfl⟩ := exists_nibbles_addr nnn
  refine ⟨opcodeTable[19], List.getElem_mem _, ?_, ?_⟩ <;> rw [encode, encodeNNN_eq]
  · exact (accepts_F000 _ _ 0xA _ _ _ _).trans (by simp)
  · exact congrArg Instr.ldI (fieldNNN_ofNibbles _ _ _ _)

theorem jpV0 (nnn : Addr12) : Statement (.jpV0 nnn) := by
  obtain ⟨b, c, d, rfl⟩ := exists_nibbles_addr nnn
  refine ⟨opcodeTable[20], List.getElem_mem _, ?_, ?_⟩ <;> rw [encode, encodeNNN_eq]
  · exact (accepts_F000 _ _ 0xB _ _ _ _).trans (by simp)
  · exact congrArg Instr.jpV0 (fieldNNN_ofNibbles _ _ _ _)

theorem rnd (x : RegIdx) (kk : Byte) : Statement (.rnd x kk) := by
  obtain ⟨c, d, rfl⟩ := exists_nibbles_byte kk
  refine ⟨opcodeTable[21], List.getElem_mem _, ?_, ?_⟩ <;> rw [encode, encodeXKK_eq]
  · exact (accepts_F000 _ _ 0xC _ _ _ _).trans (by simp)
  · exact congrArg₂ Instr.rnd (fieldX_ofNibbles _ _ _ _) (fieldKK_ofNibbles _ _ _ _)

theorem drw (x y : RegIdx) (n : RowCount) : Statement (.drw x y n) := by
  refine ⟨opcodeTable[22], List.getElem_mem _, ?_, ?_⟩ <;> rw [encode, encodeXYS]
  · exact (accepts_F000 _ _ 0xD _ _ _ _).trans (by simp)
  · exact (congr (congrArg₂ Instr.drw (fieldX_ofNibbles _ _ _ _) (fieldY_ofNibbles _ _ _ _)) (fieldN_ofNibbles _ _ _ _))

theorem ldVxDt (x : RegIdx) : Statement (.ldVxDt x) := by
  refine ⟨opcodeTable[23], List.getElem_mem _, ?_, ?_⟩ <;>
    rw [encode, encodeXS, show (0x07 : Byte) = 0x0#4 ++ 0x7#4 from rfl, encodeXKK_eq]
  · exact (accepts_F0FF _ _ 0xF 0x0 0x7 _ _ _ _).trans (by simp)
  · exact congrArg Instr.ldVxDt (fieldX_ofNibbles _ _ _ _)

theorem ldDtVx (x : RegIdx) : Statement (.ldDtVx x) := by
  refine ⟨opcodeTable[24], List.getElem_mem _, ?_, ?_⟩ <;>
    rw [encode, encodeXS, show (0x15 : Byte) = 0x1#4 ++ 0x5#4 from rfl, encodeXKK_eq]
  · exact (accepts_F0FF _ _ 0xF 0x1 0x5 _ _ _ _).trans (by simp)
  · exact congrArg Instr.ldDtVx (fieldX_ofNibbles _ _ _ _)

theorem addI (x : RegIdx) : Statement (.addI x) := by
  refine ⟨opcodeTable[25], List.getElem_mem _, ?_, ?_⟩ <;>
    rw [encode, encodeXS, show (0x1E : Byte) = 0x1#4 ++ 0xE#4 from rfl, encodeXKK_eq]
  · exact (accepts_F0FF _ _ 0xF 0x1 0xE _ _ _ _).trans (by simp)
  · exact congrArg Instr.addI (fieldX_ofNibbles _ _ _ _)

theorem ldF (x : RegIdx) : Statement (.ldF x) := by
  refine ⟨opcodeTable[26], List.getElem_mem _, ?_, ?_⟩ <;>
    rw [encode, encodeXS, show (0x29 : Byte) = 0x2#4 ++ 0x9#4 from rfl, encodeXKK_eq]
  · exact (accepts_F0FF _ _ 0xF 0x2 0x9 _ _ _ _).trans (by simp)
  · exact congrArg Instr.ldF (fieldX_ofNibbles _ _ _ _)

theorem ldB (x : RegIdx) : Statement (.ldB x) := by
  refine ⟨opcodeTable[27], List.getElem_mem _, ?_, ?_⟩ <;>
    rw [encode, encodeXS, show (0x33 : Byte) = 0x3#4 ++ 0x3#4 from rfl, encodeXKK_eq]
  · exact (accepts_F0FF _ _ 0xF 0x3 0x3 _ _ _ _).trans (by simp)
  · exact congrArg Instr.ldB (fieldX_ofNibbles _ _ _ _)

theorem ldMemVx (x : RegIdx) : Statement (.ldMemVx x) := by
  refine ⟨opcodeTable[28], List.getElem_mem _, ?_, ?_⟩ <;>
    rw [encode, encodeXS, show (0x55 : Byte) = 0x5#4 ++ 0x5#4 from rfl, encodeXKK_eq]
  · exact (accepts_F0FF _ _ 0xF 0x5 0x5 _ _ _ _).trans (by simp)
  · exact congrArg Instr.ldMemVx (fieldX_ofNibbles _ _ _ _)

theorem ldVxMem (x : RegIdx) : Statement (.ldVxMem x) := by
  refine ⟨opcodeTable[29], List.getElem_mem _, ?_, ?_⟩ <;>
    rw [encode, encodeXS, show (0x65 : Byte) = 0x6#4 ++ 0x5#4 from rfl, encodeXKK_eq]
  · exact (accepts_F0FF _ _ 0xF 0x6 0x5 _ _ _ _).trans (by simp)
  · exact congrArg Instr.ldVxMem (fieldX_ofNibbles _ _ _ _)

end Sys2Proof.Laws.RowMatch
end

