-- ==== Sys2Proof/Tests/Slice0.lean ====
section
/-! SUPPORT. The model's own tests. Expected values are the vectors of 95_test_vectors.md (named E, D, G, J, A, M, L there)
or are written out from the rule named; the witnesses show that no statement's hypotheses are empty. -/

namespace Sys2Proof.Tests

open Sys2Proof Sys2Proof.Machine

/-! ### Helpers -/

/-- A reading of the next state, none where there is none. -/
def got {α : Type} (f : State → α) : Result → Option α
  | .next s => some (f s)
  | .fault _ => none
  | .refused _ => none

/-- The state with some V registers set. -/
def withV (l : List (RegIdx × Byte)) (s : State) : State := l.foldl (fun t p => t.writeV p.1 p.2) s

/-- The state with some bytes stored from an address on. -/
def withBytes (a : Nat) (l : List Byte) (s : State) : State := s.setMem (s.mem.writeBytes a l)

/-- The state with a stack whose entries are all `w`. -/
def withStack (w : Word) (sp : StackCount) (s : State) : State := s.setStack (Vector.replicate 16 w) sp

/-- One `Step` of a word placed at PC. -/
def runWord (w : Nat) (s : State) : Result := step (s.withFetchWord 16 w)

/-- Reset, the short name of the tests. -/
abbrev s0 : State := State.reset

/-! ### Well-formedness: each check refuses an ill-formed term -/

theorem test_wf_register_16_refused : FieldKind.reg.fits 16 = false ∧ FieldKind.reg.fits 15 = true := by decide
theorem test_wf_immediate_256_refused : FieldKind.imm.fits 256 = false ∧ FieldKind.imm.fits 255 = true := by decide
theorem test_wf_address_4096_refused : FieldKind.addr.fits 4096 = false ∧ FieldKind.addr.fits 4095 = true := by decide
theorem test_wf_rows_16_refused : FieldKind.rows.fits 16 = false ∧ FieldKind.rows.fits 15 = true := by decide
theorem test_wf_operands_refused : operandsFit [(.reg, 3), (.imm, 256)] = false ∧ operandsFit [(.reg, 16)] = false := by
  decide
theorem test_wf_instr_accepted : (Instr.drw 15 15 15).wellFormed = true := by decide
theorem test_wf_image_too_long_refused : imageWellFormed (List.replicate 0xE01 0) = false := by
  rw [imageWellFormed, List.length_replicate]
  decide
theorem test_wf_image_full_accepted : imageWellFormed (List.replicate 0xE00 0) = true := by
  rw [imageWellFormed, List.length_replicate]
  decide
theorem test_wf_font_into_program_refused : fontWellFormed 0x1B1 Config.fontData = false := by decide
theorem test_wf_font_of_wrong_size_refused : fontWellFormed 0x050 (Config.fontData ++ [0]) = false := by decide
theorem test_wf_font_of_this_hardware : fontWellFormed Config.fontStart Config.fontData = true := by decide
theorem test_wf_memory_refused : Memory.wf [(3, 1), (2, 1)] = false ∧ Memory.wf [(2, 1), (2, 3)] = false ∧
    Memory.wf [(0x300, 0)] = false ∧ Memory.wf [(0x050, 0xF0)] = false ∧ Memory.wf [(0x1000, 1)] = false := by decide

/-! ### Decoding: each word written out bit by bit from its row of 30_encoding.md R52 and R56 -/

theorem test_decode_cls : decode 0b0000000011100000 = some .cls := by decide
theorem test_decode_ret : decode 0b0000000011101110 = some .ret := by decide
theorem test_decode_jp : decode 0b0001101010111100 = some (.jp 0xABC) := by decide
theorem test_decode_call : decode 0b0010001100000001 = some (.call 0x301) := by decide
theorem test_decode_seImm : decode 0b0011001101000010 = some (.seImm 3 0x42) := by decide
theorem test_decode_sneImm : decode 0b0100111110000001 = some (.sneImm 15 0x81) := by decide
theorem test_decode_seReg : decode 0b0101000100100000 = some (.seReg 1 2) := by decide
theorem test_decode_ldImm : decode 0b0110010111101110 = some (.ldImm 5 0xEE) := by decide
theorem test_decode_addImm : decode 0b0111000011111111 = some (.addImm 0 0xFF) := by decide
theorem test_decode_ldReg : decode 0b1000011110010000 = some (.ldReg 7 9) := by decide
theorem test_decode_orReg : decode 0b1000011110010001 = some (.orReg 7 9) := by decide
theorem test_decode_andReg : decode 0b1000011110010010 = some (.andReg 7 9) := by decide
theorem test_decode_xorReg : decode 0b1000011110010011 = some (.xorReg 7 9) := by decide
theorem test_decode_addReg : decode 0b1000000100100100 = some (.addReg 1 2) := by decide
theorem test_decode_sub : decode 0b1000000100100101 = some (.sub 1 2) := by decide
theorem test_decode_shr : decode 0b1000010111110110 = some (.shr 5 15) := by decide
theorem test_decode_subn : decode 0b1000000100100111 = some (.subn 1 2) := by decide
theorem test_decode_shl : decode 0b1000010100001110 = some (.shl 5 0) := by decide
theorem test_decode_sneReg : decode 0b1001000100100000 = some (.sneReg 1 2) := by decide
theorem test_decode_ldI : decode 0b1010001111010000 = some (.ldI 0x3D0) := by decide
theorem test_decode_jpV0 : decode 0b1011001100000100 = some (.jpV0 0x304) := by decide
theorem test_decode_rnd : decode 0b1100001100001111 = some (.rnd 3 0x0F) := by decide
theorem test_decode_drw : decode 0b1101000100100101 = some (.drw 1 2 5) := by decide
theorem test_decode_ldVxDt : decode 0b1111001100000111 = some (.ldVxDt 3) := by decide
theorem test_decode_ldDtVx : decode 0b1111001100010101 = some (.ldDtVx 3) := by decide
theorem test_decode_addI : decode 0b1111001000011110 = some (.addI 2) := by decide
theorem test_decode_ldF : decode 0b1111101000101001 = some (.ldF 10) := by decide
theorem test_decode_ldB : decode 0b1111101000110011 = some (.ldB 10) := by decide
theorem test_decode_ldMemVx : decode 0b1111001101010101 = some (.ldMemVx 3) := by decide
theorem test_decode_ldVxMem : decode 0b1111001001100101 = some (.ldVxMem 2) := by decide

theorem test_decode_rejects_nibble_0 : decode 0x0000 = none ∧ decode 0x01E0 = none ∧ decode 0x0123 = none := by decide
theorem test_decode_rejects_nibbles_5_8_9 :
    decode 0x5121 = none ∧ decode 0x9AB3 = none ∧ decode 0x8008 = none ∧ decode 0x800F = none := by decide
theorem test_decode_rejects_keys_and_sound :
    decode 0xE09E = none ∧ decode 0xE0A1 = none ∧ decode 0xF00A = none ∧ decode 0xF018 = none := by decide
theorem test_decodeBytes_takes_two : decodeBytes [0x12, 0x34, 0x56] = .instr (.jp 0x234) [0x56] := by decide
theorem test_decodeBytes_truncated : decodeBytes [0x12] = .truncated [0x12] ∧ decodeBytes [] = .truncated [] := by decide
theorem test_decodeBytes_unsupported : decodeBytes [0xE0, 0x9E] = .unsupported 0xE09E := by decide
theorem test_decodeTableWord : decodeTableWord 16 0xD125 = some (.drw 1 2 5) ∧ decodeTableWord 16 0x5121 = none := by decide
theorem test_encode_drw : encode (.drw 1 2 5) = 0xD125 := by decide

/-- Lines of the programs P1 and P3 of 95_test_vectors.md. -/
theorem test_listing : listing (.addImm 0 0xFF) = "ADD V0, 0xFF" ∧ listing (.drw 1 2 5) = "DRW V1, V2, 5" ∧
    listing (.jp 0x20C) = "JP 0x20C" := by decide

/-! ### One step of each instruction -/

/-- G1. -/
theorem test_cls :
    got (fun t => (t.fb.pix 5 6, t.readV 15, t.pc)) (runWord 0x00E0 (withV [(15, 7)] (s0.setFb (s0.fb.setPix 5 6 true)))) =
      some (false, 7, 0x202) := by decide

/-- J5. -/
theorem test_ret :
    got (fun t => (t.pc, t.sp)) (runWord 0x00EE (withStack 0x206 1 (s0.setPc 0x212))) =
      some (0x206, 0) := by decide

/-- J6. -/
theorem test_ret_empty :
    got (fun t => (t.status, t.sp, t.pc)) (runWord 0x00EE s0) =
      some (.faulted (.stackUnderflow 0), 0, 0x202) := by decide

/-- J1, E10. -/
theorem test_jp :
    got (fun t => t.pc) (runWord 0x1ABC s0) =
      some 0xABC := by decide

/-- J3. -/
theorem test_call :
    got (fun t => (t.stack[0], t.sp, t.pc)) (runWord 0x2300 (s0.setPc 0x204)) =
      some (0x206, 1, 0x300) := by decide

/-- J4. -/
theorem test_call_full :
    got (fun t => (t.status, t.sp, t.pc)) (runWord 0x2300 (withStack 0x202 16 s0)) =
      some (.faulted (.stackOverflow 16), 16, 0x202) := by decide

/-- J8. -/
theorem test_seImm_taken :
    got (fun t => t.pc) (runWord 0x3342 (withV [(3, 0x42)] s0)) =
      some 0x204 := by decide

/-- J9. -/
theorem test_seImm_not_taken :
    got (fun t => t.pc) (runWord 0x3342 (withV [(3, 0x41)] s0)) =
      some 0x202 := by decide

/-- J10. -/
theorem test_sneImm_taken :
    got (fun t => t.pc) (runWord 0x4342 (withV [(3, 0x41)] s0)) =
      some 0x204 := by decide

/-- J11. -/
theorem test_sneImm_not_taken :
    got (fun t => t.pc) (runWord 0x4342 (withV [(3, 0x42)] s0)) =
      some 0x202 := by decide

/-- J12. -/
theorem test_seReg_taken :
    got (fun t => t.pc) (runWord 0x5120 (withV [(1, 7), (2, 7)] s0)) =
      some 0x204 := by decide

/-- The complement of J12 (41_control_flow.md R84). -/
theorem test_seReg_not_taken :
    got (fun t => t.pc) (runWord 0x5120 (withV [(1, 7), (2, 8)] s0)) =
      some 0x202 := by decide

/-- J14. -/
theorem test_sneReg_taken :
    got (fun t => t.pc) (runWord 0x9120 (withV [(1, 7), (2, 8)] s0)) =
      some 0x204 := by decide

/-- J15. -/
theorem test_sneReg_same :
    got (fun t => t.pc) (runWord 0x9110 (withV [(1, 7)] s0)) =
      some 0x202 := by decide

/-- J17. -/
theorem test_jpV0 :
    got (fun t => t.pc) (runWord 0xB300 (withV [(0, 0x10), (3, 0x77)] s0)) =
      some 0x310 := by decide

/-- J18. -/
theorem test_jpV0_unmasked :
    got (fun t => t.pc) (runWord 0xBFFF (withV [(0, 0xFF)] s0)) =
      some 0x10FE := by decide

/-- A1. -/
theorem test_ldImm :
    got (fun t => (t.readV 5, t.pc)) (runWord 0x65EE s0) =
      some (0xEE, 0x202) := by decide

/-- A2. -/
theorem test_ldImm_vf :
    got (fun t => t.readV 15) (runWord 0x6F10 (withV [(15, 3)] s0)) =
      some 0x10 := by decide

/-- A3. -/
theorem test_addImm_wraps :
    got (fun t => (t.readV 0, t.readV 15)) (runWord 0x7001 (withV [(0, 0xFF), (15, 7)] s0)) =
      some (0, 7) := by decide

/-- E2. -/
theorem test_addImm :
    got (fun t => t.readV 5) (runWord 0x7501 (withV [(5, 0xEE)] s0)) =
      some 0xEF := by decide

/-- A5. -/
theorem test_ldReg :
    got (fun t => (t.readV 0, t.readV 1)) (runWord 0x8010 (withV [(1, 0x33)] s0)) =
      some (0x33, 0x33) := by decide

/-- A6. -/
theorem test_orReg :
    got (fun t => (t.readV 0, t.readV 15)) (runWord 0x8011 (withV [(0, 0xF0), (1, 0x0F), (15, 7)] s0)) =
      some (0xFF, 7) := by decide

/-- A7. -/
theorem test_andReg :
    got (fun t => t.readV 0) (runWord 0x8012 (withV [(0, 0xF0), (1, 0x3C)] s0)) =
      some 0x30 := by decide

/-- A8. -/
theorem test_xorReg :
    got (fun t => t.readV 0) (runWord 0x8013 (withV [(0, 0xF0), (1, 0x3C)] s0)) =
      some 0xCC := by decide

/-- A13. -/
theorem test_addReg_carry :
    got (fun t => (t.readV 1, t.readV 15)) (runWord 0x8124 (withV [(1, 0xFF), (2, 0xFF)] s0)) =
      some (0xFE, 1) := by decide

/-- A15. -/
theorem test_addReg_flag_last :
    got (fun t => t.readV 15) (runWord 0x8F14 (withV [(15, 0xFF), (1, 0x01)] s0)) =
      some 1 := by decide

/-- A18. -/
theorem test_sub_borrow :
    got (fun t => (t.readV 1, t.readV 15)) (runWord 0x8125 (withV [(1, 0x10), (2, 0x30)] s0)) =
      some (0xE0, 0) := by decide

/-- A19. -/
theorem test_sub_equal :
    got (fun t => (t.readV 1, t.readV 15)) (runWord 0x8125 (withV [(1, 0x42), (2, 0x42)] s0)) =
      some (0, 1) := by decide

/-- D12 (y is a don't-care). -/
theorem test_shr :
    got (fun t => (t.readV 5, t.readV 15)) (runWord 0x85F6 (withV [(5, 0x81)] s0)) =
      some (0x40, 1) := by decide

/-- A27. -/
theorem test_shr_vf :
    got (fun t => t.readV 15) (runWord 0x8F06 (withV [(15, 3)] s0)) =
      some 1 := by decide

/-- A28. -/
theorem test_subn :
    got (fun t => (t.readV 1, t.readV 15)) (runWord 0x8127 (withV [(1, 0x10), (2, 0x30)] s0)) =
      some (0x20, 1) := by decide

/-- A29. -/
theorem test_subn_borrow :
    got (fun t => (t.readV 1, t.readV 15)) (runWord 0x8127 (withV [(1, 0x30), (2, 0x10)] s0)) =
      some (0xE0, 0) := by decide

/-- A31, E5. -/
theorem test_shl :
    got (fun t => (t.readV 5, t.readV 15)) (runWord 0x850E (withV [(5, 0x81)] s0)) =
      some (0x02, 1) := by decide

/-- A36. -/
theorem test_shl_vf :
    got (fun t => t.readV 15) (runWord 0x8F0E (withV [(15, 0x7F)] s0)) =
      some 0 := by decide

/-- A37. -/
theorem test_rnd :
    got (fun t => (t.readV 3, t.randQueue)) (runWord 0xC30F (s0.setRand [0x5A, 0x77] 0)) =
      some (0x0A, [0x77]) := by decide

/-- A38: one byte is consumed though the result is 0; with no answer queued it is a free value. -/
theorem test_rnd_consumes_when_masked :
    got (fun t => (t.randDrawn, t.readV 2, t.pc)) (runWord 0xC300 s0) =
      some (1, 0, 0x202) := by decide

/-- M1. -/
theorem test_ldI :
    got (fun t => t.i) (runWord 0xA3D0 s0) =
      some 0x3D0 := by decide

/-- M3. -/
theorem test_addI_not_masked :
    got (fun t => (t.i, t.readV 15)) (runWord 0xF01E (withV [(0, 1)] (s0.setI 0xFFF))) =
      some (0x1000, 0) := by decide

/-- M4. -/
theorem test_addI_wraps :
    got (fun t => t.i) (runWord 0xF01E (withV [(0, 1)] (s0.setI 0xFFFF))) =
      some 0 := by decide

/-- M6. -/
theorem test_ldF :
    got (fun t => t.i) (runWord 0xF029 (withV [(0, 0x0A)] s0)) =
      some 0x082 := by decide

/-- M9. -/
theorem test_ldF_no_check :
    got (fun t => t.i) (runWord 0xF029 (withV [(0, 0xFF)] s0)) =
      some 0x54B := by decide

/-- M21. -/
theorem test_ldVxDt :
    got (fun t => t.readV 3) (runWord 0xF307 (s0.setDt 0x3C)) =
      some 0x3C := by decide

/-- M22. -/
theorem test_ldDtVx :
    got (fun t => (t.dt, t.st)) (runWord 0xF315 (withV [(3, 0x3C)] s0)) =
      some (0x3C, 0) := by decide

/-- M13. -/
theorem test_ldB :
    got (fun t => (t.mem.read 0x3D0, t.mem.read 0x3D1, t.mem.read 0x3D2, t.i)) (runWord 0xF033 (withV [(0, 0x8A)] (s0.setI 0x3D0))) =
      some (1, 3, 8, 0x3D0) := by decide

/-- M15. -/
theorem test_ldB_faults :
    got (fun t => (t.mem.read 0xFFE, t.mem.read 0xFFF, t.status)) (runWord 0xF033 (withV [(0, 0xFF)] (s0.setI 0xFFE))) =
      some (2, 5, .faulted (.memoryOutOfRange 0x1000)) := by decide

/-- M17. -/
theorem test_ldMemVx_faults :
    got (fun t => (t.mem.read 0xFF8, t.mem.read 0xFFF, t.status, t.i)) (runWord 0xFF55 (withV [(0, 0x10), (7, 0x17)] (s0.setI 0xFF8))) =
      some (0x10, 0x17, .faulted (.memoryOutOfRange 0x1000), 0xFF8) := by decide

/-- M24. -/
theorem test_ldMemVx_over_font :
    got (fun t => (t.mem.read 0x050, t.mem.read 0x051, t.status)) (runWord 0xF055 (s0.setI 0x050)) =
      some (0, 0x90, .running) := by decide

/-- M18. -/
theorem test_ldVxMem :
    got (fun t => (t.readV 0, t.readV 3, t.readV 4, t.i)) (runWord 0xF365 (withV [(4, 0x77)] (withBytes 0x300 [0x0A, 0x0B, 0x0C, 0x0D] (s0.setI 0x300)))) =
      some (0x0A, 0x0D, 0x77, 0x300) := by decide

/-- M19. -/
theorem test_ldVxMem_faults :
    got (fun t => (t.readV 0, t.readV 1, t.status)) (runWord 0xF165 (withV [(1, 0x55)] (withBytes 0xFFF [0x66] (s0.setI 0xFFF)))) =
      some (0x66, 0x55, .faulted (.memoryOutOfRange 0x1000)) := by decide

/-- G5. -/
theorem test_drw_clips :
    got (fun t => (t.fb.pix 60 30, t.fb.pix 63 31, t.fb.pix 61 31, t.readV 15)) (runWord 0xD125 (withV [(1, 0x3C), (2, 0x1E), (15, 9)] (s0.setI 0x050))) =
      some (true, true, false, 0) := by decide

/-- G7. -/
theorem test_drw_faults_after_a_row :
    got (fun t => (t.fb.pix 0 0, t.fb.pix 7 0, t.status, t.pc)) (runWord 0xD012 (withBytes 0xFFF [0xFF] (s0.setI 0xFFF))) =
      some (true, true, .faulted (.memoryOutOfRange 0x1000), 0x202) := by decide

/-! ### The cycle, the transactions and the read ports -/

/-- D2. -/
theorem test_step_at_the_top :
    got (fun t => (t.readV 10, t.pc)) (step (withBytes 0xFFE [0x6A, 0x07] (s0.setPc 0xFFE))) = some (7, 0x1000) := by decide

/-- D3 and D4. -/
theorem test_fetch_faults :
    got (fun t => (t.status, t.pc)) (step (s0.setPc 0x1000)) = some (.faulted (.memoryOutOfRange 0x1000), 0x1000) ∧
    got (fun t => (t.status, t.pc)) (step (s0.setPc 0xFFF)) = some (.faulted (.memoryOutOfRange 0x1000), 0xFFF) := by decide

/-- D5. -/
theorem test_step_at_odd_pc :
    got (fun t => (t.readV 0, t.pc)) (step (withBytes 0x201 [0x60, 0x55] (s0.setPc 0x201))) = some (0x55, 0x203) := by decide

/-- D6. -/
theorem test_unsupported_word :
    got (fun t => (t.status, t.pc)) (step s0) = some (.faulted (.unsupportedInstruction 0x0000), 0x202) := by decide

/-- D14 and J20. -/
theorem test_execute_does_not_advance :
    got State.pc (execute 0x3000 s0) = some 0x202 ∧
    got (fun t => (t.stack[0], t.sp, t.pc)) (execute 0x2300 s0) = some (0x200, 1, 0x300) := by decide

/-- M23. -/
theorem test_tick_saturates :
    got State.dt (tickDelay (s0.setDt 1)) = some 0 ∧ got State.dt (tickDelay (s0.setDt 0)) = some 0 := by decide

/-- L1 on a short image, and 20_memory.md R40's second `Load`. -/
theorem test_load_places_bytes :
    got (fun t => (t.mem.read 0x200, t.mem.read 0x201, t.mem.read 0x202, t.loadOpen)) (load [0x12, 0x34] s0) =
      some (0x12, 0x34, 0, false) := by decide

/-- L2, the length in decimal. -/
theorem test_load_rejects (l : List Byte) (h : l.length = 3585) : load l s0 = .next (s0.raise (.loadRejected 3585)) := by
  show loadImage l s0 = _
  rw [loadImage, imageWellFormed, h, if_pos (show s0.loadOpen = true from rfl), if_neg (by decide)]

/-- G12, and 10_state.md R32 on dead stack entries. -/
theorem test_ports_refuse :
    readPixel s0 64 0 = none ∧ readPixel s0 63 31 = some false ∧ inspect s0 (.stack 0) = none ∧
    inspect s0 (.mem 0x1000) = none ∧ inspect s0 (.mem 0x050) = some (.byte 0xF0) := by decide

/-- 60_exceptions.md R112. -/
theorem test_fault_codes :
    faultCode (.unsupportedInstruction 0) = 1 ∧ faultCode (.stackUnderflow 0) = 2 ∧ faultCode (.stackOverflow 16) = 3 ∧
    faultCode (.memoryOutOfRange 0x1000) = 4 ∧ faultCode (.loadRejected 3585) = 5 ∧ faultCode (.fontWrite 0x050) = 6 := by
  decide

/-! ### The values this hardware does not take (93_implementation_defined.md) -/

/-- A15 and A16 under `literal` and `result_last`. -/
theorem test_other_flag_orders :
    (writeFlagged .resultLast (fun a b => a + b) carryFlag 15 1 (withV [(15, 0xFF), (1, 1)] s0)).readV 15 = 0 ∧
    (writeFlagged .literal (fun a b => a + b) carryFlag 15 1 (withV [(15, 0xFF), (1, 1)] s0)).readV 15 = 2 ∧
    (writeFlagged .literal (fun a b => a + b) carryFlag 0 15 (withV [(0, 1), (15, 1)] s0)).readV 0 = 1 := by decide

/-- M24 under `fault`. -/
theorem test_font_fault :
    got (fun t => (t.status, t.mem.read 0x050)) (storeBytes .fault [0] 0x050 s0) =
      some (.faulted (.fontWrite 0x050), 0xF0) := by decide

/-- G10 under `CLIP_LAST_PIXEL_DRAWN = false`: column 63 is not drawn. -/
theorem test_last_column_not_drawn :
    got (fun t => t.fb.pix 63 0)
      (drawRows (lastIndex false 64) (lastIndex false 32) 63 0 1 0 (withBytes 0x300 [0xC0] (s0.setI 0x300))) =
      some false := by decide

/-! ### Witnesses: the hypotheses of the statements can be met, clause by clause at the ends of their ranges -/

theorem witness_EncodeInvertsDecode : decode 0x85F6 = some (.shr 5 15) := by decide

theorem witness_OpcodeMapByNibble_edges :
    fieldOp 0x00E0 = 0x0 ∧ fieldOp 0x1FFF = 0x1 ∧ fieldOp 0x5120 = 0x5 ∧ fieldOp 0x812E = 0x8 ∧ fieldOp 0xE09E = 0xE ∧
    fieldOp 0xFF65 = 0xF := by decide

theorem witness_StepRunsDecodedInstruction :
    let s := withBytes 0xFFE [0x6A, 0x07] (s0.setPc 0xFFE)
    s.isRunning ∧ s.pc.toNat + 1 < 4096 ∧
      decode (wordOfBytes (s.mem.read s.pc.toNat) (s.mem.read (s.pc.toNat + 1))) = some (.ldImm 10 7) := by decide

theorem witness_StepFetchAndDecodeFaults_beyond :
    (s0.setPc 0x1000).isRunning ∧ 4096 ≤ (s0.setPc 0x1000).pc.toNat := by decide

theorem witness_StepFetchAndDecodeFaults_second_byte :
    (s0.setPc 0xFFF).isRunning ∧ (s0.setPc 0xFFF).pc.toNat = 0xFFF := by decide

theorem witness_StepFetchAndDecodeFaults_unsupported :
    let s := s0.setPc 0xFFE
    s.isRunning ∧ s.pc.toNat + 1 < 4096 ∧
      decode (wordOfBytes (s.mem.read s.pc.toNat) (s.mem.read (s.pc.toNat + 1))) = none := by decide

theorem witness_ExecuteWithoutFetch : s0.isRunning ∧ decode 0x6005 = some (.ldImm 0 5) ∧ decode 0xE09E = none := by decide

theorem witness_PlacedWordIsFetched : (s0.setPc 0xFFE).mem.wf = true ∧ (s0.setPc 0xFFE).pc.toNat + 1 < 4096 := by decide

theorem witness_FaultedBlockStaysFaulted :
    (s0.raise (.stackUnderflow 0)).status = .faulted (.stackUnderflow 0) := by decide

/-- The four clauses on accesses, at the first address that does not exist. -/
theorem witness_MemoryOutOfRangeRaisers_accesses :
    (0xFFF < 0x1000 ∧ ¬ 0xFFF < 0xFFF) ∧ fetchWord (s0.setPc 0xFFF) = .error (.memoryOutOfRange 0x1000) :=
  ⟨by decide, rfl⟩

theorem witness_MemoryOutOfRangeRaisers_draw :
    ∃ t, (s0.setI 0xFFF).isRunning ∧ exec (.drw 0 0 2) (s0.setI 0xFFF) = .next t ∧
      t.status = .faulted (.memoryOutOfRange 0x1000) := ⟨_, rfl, rfl, by decide⟩

theorem witness_MemoryOutOfRangeRaisers_store :
    ∃ t, (s0.setI 0xFFE).isRunning ∧ exec (.ldB 0) (s0.setI 0xFFE) = .next t ∧
      t.status = .faulted (.memoryOutOfRange 0x1000) := ⟨_, rfl, rfl, by decide⟩

theorem witness_MemoryOutOfRangeRaisers_load :
    ∃ t, (s0.setI 0xFFF).isRunning ∧ exec (.ldVxMem 1) (s0.setI 0xFFF) = .next t ∧
      t.status = .faulted (.memoryOutOfRange 0x1000) := ⟨_, rfl, rfl, by decide⟩

theorem witness_ReturnPopsOrUnderflows :
    0 < (withStack 0x206 1 s0).sp.val ∧ 0 < (withStack 0x206 16 s0).sp.val ∧ s0.sp.val = 0 := by decide

theorem witness_CallPushesOrOverflows :
    s0.sp.val < 16 ∧ (withStack 0x206 15 s0).sp.val < 16 ∧ (withStack 0x206 16 s0).sp.val = 16 := by decide

/-- Both outcomes of the comparison, and the largest PC whose sum fits. -/
theorem witness_SkipOnByte :
    s0.readV 3 = 0 ∧ s0.readV 3 ≠ 1 ∧ (s0.setPc 0xFFFD).readV 3 = 0 ∧ (s0.setPc 0xFFFD).pc.toNat + 2 < 65536 := by decide

theorem witness_SkipOnRegister :
    let s := withV [(1, 7)] (s0.setPc 0xFFFD)
    s.readV 1 ≠ s.readV 2 ∧ s.readV 2 = s.readV 3 ∧ s.pc.toNat + 2 < 65536 ∧ (1 : Nibble) ≠ 0 ∧ (15 : Nibble) ≠ 0 := by
  decide

theorem witness_flag_destinations : (0 : RegIdx) ≠ 15 ∧ (14 : RegIdx) ≠ 15 := by decide

theorem witness_RandomByteMasked : (State.resetWith [0x5A]).randQueue = 0x5A :: [] ∧ s0.randQueue = [] := by decide

theorem witness_BcdStoresDigits_inside : (s0.setI 0xFFD).mem.wf = true ∧ (s0.setI 0xFFD).i.toNat + 2 ≤ 0xFFF := by decide

theorem witness_BcdStoresDigits_third : (2 : Nat) < 3 ∧ 0xFFF < (s0.setI 0xFFE).i.toNat + 2 ∧
    ∀ j, j < 2 → (s0.setI 0xFFE).i.toNat + j ≤ 0xFFF := by decide

theorem witness_BcdStoresDigits_second : (1 : Nat) < 3 ∧ 0xFFF < (s0.setI 0xFFF).i.toNat + 1 ∧
    ∀ j, j < 1 → (s0.setI 0xFFF).i.toNat + j ≤ 0xFFF := by decide

theorem witness_BcdStoresDigits_first : (0 : Nat) < 3 ∧ 0xFFF < (s0.setI 0x1000).i.toNat + 0 ∧
    ∀ j, j < 0 → (s0.setI 0x1000).i.toNat + j ≤ 0xFFF := by decide

theorem witness_BcdStoresDigits_font_below : (2 : Nat) < 3 ∧ 0x050 ≤ (s0.setI 0x04E).i.toNat + 2 ∧
    (s0.setI 0x04E).i.toNat + 2 ≤ 0x09F ∧ ∀ j, j < 2 → (s0.setI 0x04E).i.toNat + j < 0x050 := by decide

theorem witness_BcdStoresDigits_font_second : (1 : Nat) < 3 ∧ 0x050 ≤ (s0.setI 0x04F).i.toNat + 1 ∧
    (s0.setI 0x04F).i.toNat + 1 ≤ 0x09F ∧ ∀ j, j < 1 → (s0.setI 0x04F).i.toNat + j < 0x050 := by decide

theorem witness_BcdStoresDigits_font_last : (0 : Nat) < 3 ∧ 0x050 ≤ (s0.setI 0x09F).i.toNat + 0 ∧
    (s0.setI 0x09F).i.toNat + 0 ≤ 0x09F ∧ ∀ j, j < 0 → (s0.setI 0x09F).i.toNat + j < 0x050 := by decide

theorem witness_StoreRegisterBlock : (s0.setI 0xFF0).mem.wf = true ∧ (s0.setI 0xFF0).i.toNat + (15 : RegIdx).val ≤ 0xFFF := by
  decide

theorem witness_LoadRegisterBlock : (s0.setI 0xFFF).i.toNat + (0 : RegIdx).val ≤ 0xFFF ∧
    (s0.setI 0xFF0).i.toNat + (15 : RegIdx).val ≤ 0xFFF := by decide

theorem witness_RegisterBlockFaultKeepsPrefix_last : (s0.setI 0xFF1).mem.wf = true ∧ 15 ≤ (15 : RegIdx).val ∧
    0xFFF < (s0.setI 0xFF1).i.toNat + 15 ∧ ∀ j, j < 15 → (s0.setI 0xFF1).i.toNat + j ≤ 0xFFF := by decide

theorem witness_RegisterBlockFaultKeepsPrefix_first : (s0.setI 0xFFFF).mem.wf = true ∧ 0 ≤ (0 : RegIdx).val ∧
    0xFFF < (s0.setI 0xFFFF).i.toNat + 0 ∧ ∀ j, j < 0 → (s0.setI 0xFFFF).i.toNat + j ≤ 0xFFF := by decide

theorem witness_StoreThenLoadRoundTrip :
    ∃ t, (s0.setI 0x300).mem.wf = true ∧ (s0.setI 0x300).i.toNat + (3 : RegIdx).val ≤ 0xFFF ∧
      exec (.ldMemVx 3) (s0.setI 0x300) = .next t ∧ (t.setPc 0x300).mem = t.mem ∧ (t.setPc 0x300).i = t.i :=
  ⟨_, by decide, by decide, rfl, rfl, rfl⟩

/-- Both bytes of the last word of memory, stored from below PC by `Fx55` up to the last byte. -/
theorem witness_StoredCodeIsFetched_block : let s := (s0.setPc 0xFFE).setI 0xFF0
    s.mem.wf = true ∧ s.pc.toNat + 1 ≤ 0xFFF ∧ s.i.toNat + (15 : RegIdx).val ≤ 0xFFF ∧
      s.i.toNat + (14 : RegIdx).val = s.pc.toNat ∧ s.i.toNat + (15 : RegIdx).val = s.pc.toNat + 1 := by decide

/-- One byte of the word stored, the other not: the store begins at PC+1, and it ends at PC. -/
theorem witness_StoredCodeIsFetched_half : let s := s0.setI 0x201; let s' := s0.setI 0x200
    (s.pc.toNat < s.i.toNat ∧ s.i.toNat + (0 : RegIdx).val = s.pc.toNat + 1) ∧
      (s'.i.toNat + (0 : RegIdx).val < s'.pc.toNat + 1 ∧ s'.i.toNat + (0 : RegIdx).val = s'.pc.toNat) := by decide

/-- The digits of `Fx33`: tens and ones onto the last word, hundreds alone onto PC+1. -/
theorem witness_StoredCodeIsFetched_digits : let s := (s0.setPc 0xFFE).setI 0xFFD; let s' := s0.setI 0x201
    (s.pc.toNat + 1 ≤ 0xFFF ∧ s.i.toNat + 2 ≤ 0xFFF ∧ s.i.toNat + 1 = s.pc.toNat ∧ s.i.toNat + 2 = s.pc.toNat + 1) ∧
      (s'.i.toNat + 2 ≤ 0xFFF ∧ s'.pc.toNat < s'.i.toNat ∧ s'.i.toNat + 0 = s'.pc.toNat + 1) := by decide

/-- The bottom row with I at the last byte, where only the first of fifteen rows is read; and a full sprite that ends at
the last byte. -/
theorem witness_DrawXorsClippedSprite :
    SpriteReadable (s0.setI 0xFFF) 31 15 ∧ SpriteReadable (s0.setI 0xFF1) 0 15 := by
  unfold SpriteReadable
  decide

/-- The two VF clauses: a lit pixel under a 1-bit, and none. -/
theorem witness_DrawXorsClippedSprite_flags :
    let s := s0.setI 0x050
    (spriteBit s 63 31 5 63 31 = true ∧ (s.setFb (s.fb.setPix 63 31 true)).fb.pix 63 31 = true) ∧
      s.fb.pix 63 31 = false := by decide

theorem witness_DrawFaultKeepsRowsDrawn : let s := s0.setI 0xFFF
    (1 : RowCount).val < (2 : RowCount).val ∧ (s.readV 0).toNat % 32 + 1 < 32 ∧ 0xFFF < s.i.toNat + 1 ∧
      ∀ q, q < 1 → s.i.toNat + q ≤ 0xFFF := by decide

theorem witness_DrawTwiceRestoresDisplay :
    ∃ t, SpriteReadable (s0.setI 0x050) 0 2 ∧ exec (.drw 0 1 2) (s0.setI 0x050) = .next t ∧
      (t.readV 0).toNat % 64 = ((s0.setI 0x050).readV 0).toNat % 64 ∧
      (t.readV 1).toNat % 32 = ((s0.setI 0x050).readV 1).toNat % 32 :=
  ⟨_, by unfold SpriteReadable; decide, rfl, by decide, by decide⟩

/-- Eight full rows ending at the last byte, drawn in the corner farthest from the origin (E8's shape). -/
theorem witness_FullSpriteDrawnTwice :
    let s := withV [(0, 0xF8), (1, 0xF8)] (withBytes 0xFF8 (List.replicate 8 0xFF) (s0.setI 0xFF8))
    (∀ k, k < 8 → s.mem.read (s.i.toNat + k) = 0xFF) ∧ s.i.toNat + 7 ≤ 0xFFF ∧ (s.readV 0).toNat % 64 = 56 ∧
      (s.readV 1).toNat % 32 = 24 ∧ ∀ a, a < 8 → ∀ b, b < 8 → s.fb.pix (56 + a) (24 + b) = false := by decide

theorem witness_MemoryReadAfterWrite : s0.mem.wf = true ∧ (0xFFF : Nat) ≤ 0xFFF := by decide

theorem witness_CanonicalMemoryUnique :
    Memory.wf [(0x300, 1)] = true ∧ ∀ a, a ≤ 0xFFF → Memory.read [(0x300, 1)] a = Memory.read [(0x300, 1)] a :=
  ⟨by decide, fun _ _ => rfl⟩

/-- Inside the font region at both ends, and just outside it. -/
theorem witness_FontWritePolicies :
    (0x050 ≤ 0x050 ∧ 0x050 ≤ 0x09F) ∧ (0x050 ≤ 0x09F ∧ 0x09F ≤ 0x09F) ∧ (0x04F < 0x050 ∨ 0x09F < 0x04F) ∧
      (0x0A0 < 0x050 ∨ 0x09F < 0x0A0) ∧ 0xFFF ≤ 0xFFF := by decide

theorem witness_LoadPlacesImageOrRejects : s0.isRunning ∧ s0.loadOpen = true ∧ s0.mem.wf = true ∧
    (List.replicate 0xE00 (0 : Byte)).length ≤ 0xE00 ∧ 0xE00 < (List.replicate 0xE01 (0 : Byte)).length :=
  ⟨by decide, by decide, by decide, by rw [List.length_replicate],
    by rw [List.length_replicate]; decide⟩

theorem witness_LoadAcceptedOnlyOnceAndFirst_closed :
    ∃ t, (s0.setLoadOpen false).isRunning ∧ (s0.setLoadOpen false).loadOpen = false ∧
      transact .tickDelay (s0.setLoadOpen false) = .next t := ⟨_, by decide, by decide, rfl⟩

/-- `Step`, then `TickDelay`. -/
theorem witness_LoadAcceptedOnlyOnceAndFirst_step :
    ∃ t u, Transaction.step ≠ .tickDelay ∧ transact .step (s0.withFetchWord 16 0x00E0) = .next t ∧
      runSchedule [.tickDelay] t = .next u ∧ u.isRunning := ⟨_, _, by decide, rfl, rfl, by decide⟩

theorem witness_LoadAcceptedOnlyOnceAndFirst_load :
    ∃ t u, Transaction.load [] ≠ .tickDelay ∧ transact (.load []) s0 = .next t ∧ runSchedule [] t = .next u ∧ u.isRunning :=
  ⟨_, _, by decide, rfl, rfl, by decide⟩

theorem witness_TickCountsDownToZero : (s0.setDt 1).isRunning ∧ (s0.setDt 0).isRunning := by decide

theorem witness_OnlyDisplayFamilyWritesPixels :
    (∃ t, exec .cls s0 = .next t) ∧ (∃ t, exec (.drw 0 0 1) s0 = .next t) ∧ ∃ t, exec (.ldB 0) s0 = .next t :=
  ⟨⟨_, rfl⟩, ⟨_, rfl⟩, ⟨_, rfl⟩⟩

theorem witness_OnlyNamedWriters : ∃ t, exec (.ldI 0x300) s0 = .next t ∧ t.i ≠ s0.i := ⟨_, rfl, by decide⟩

theorem witness_OnlyFlagWritersOrDestinationWriteVF :
    (∃ t, exec (.ldImm 15 7) s0 = .next t ∧ t.readV 15 ≠ s0.readV 15) ∧
    (∃ t, exec (.sub 0 1) s0 = .next t ∧ t.readV 15 ≠ s0.readV 15) :=
  ⟨⟨_, rfl, by decide⟩, ⟨_, rfl, by decide⟩⟩

theorem witness_StepKeepsStoreInv : let s := s0.withFetchWord 16 0xF055
    StoreInv s ∧ ∃ t, step s = .next t ∧ t.isRunning := ⟨by decide, _, rfl, by decide⟩

/-- A jump to the largest target the bound allows. -/
theorem witness_StepKeepsPcInv : let s := withV [(0, 0xFF)] (s0.withFetchWord 16 0xBFFF)
    PcInv s ∧ ∃ t, step s = .next t ∧ t.pc.toNat = 0x10FE := ⟨by decide, _, rfl, by decide⟩

theorem witness_ReachableStatesKeepStoreInv_transactions :
    StoreInv s0 ∧ (∃ t, transact (.load [0x60, 0x05]) s0 = .next t) ∧ (∃ t, transact .step s0 = .next t) ∧
      (∃ t, transact (.execute 0xF055) s0 = .next t) ∧ ∃ t, transact .tickDelay s0 = .next t :=
  ⟨by decide, ⟨_, rfl⟩, ⟨_, rfl⟩, ⟨_, rfl⟩, ⟨_, rfl⟩⟩

theorem witness_ReachableStatesKeepStoreInv_reachable : ∃ t, load [0x60, 0x05] s0 = .next t ∧ Reachable t :=
  ⟨_, rfl, .transact (.load [0x60, 0x05]) (.reset []) rfl⟩

theorem witness_DeadStackEntriesUnobservable : SameButDeadStack (withStack 0 0 s0) (withStack 0x777 0 s0) ∧
    SameButDeadStack (withStack 0x206 16 s0) (withStack 0x206 16 s0) := by
  unfold SameButDeadStack
  decide

theorem witness_SoundTimerUnobservable : (withSt 7 s0).st ≠ s0.st := by decide

end Sys2Proof.Tests
end

section
/-! PROOFS. The six fields of a word (30_encoding.md R51), read as unsigned numbers. -/

namespace Sys2Proof

/-! ### Fields as numbers -/

theorem toNat_fieldOp (w : Word) : (fieldOp w).toNat = w.toNat / 4096 := by
  simp only [fieldOp, BitVec.extractLsb'_toNat, Nat.shiftRight_eq_div_pow]
  omega

theorem val_fieldX (w : Word) : (fieldX w).val = w.toNat / 256 % 16 := by
  simp [fieldX, Nat.shiftRight_eq_div_pow]

theorem val_fieldY (w : Word) : (fieldY w).val = w.toNat / 16 % 16 := by
  simp [fieldY, Nat.shiftRight_eq_div_pow]

theorem val_fieldN (w : Word) : (fieldN w).val = w.toNat % 16 := by
  simp [fieldN]

theorem toNat_fieldKK (w : Word) : (fieldKK w).toNat = w.toNat % 256 := by
  simp [fieldKK]

theorem toNat_fieldNNN (w : Word) : (fieldNNN w).toNat = w.toNat % 4096 := by
  simp [fieldNNN]

/-- `kk` is the digits `y` and `n`. -/
theorem toNat_fieldKK_eq_digits (w : Word) : (fieldKK w).toNat = 16 * (fieldY w).val + (fieldN w).val := by
  rw [toNat_fieldKK, val_fieldY, val_fieldN]
  omega

/-- `nnn` is the digits `x`, `y` and `n`. -/
theorem toNat_fieldNNN_eq_digits (w : Word) :
    (fieldNNN w).toNat = 256 * (fieldX w).val + 16 * (fieldY w).val + (fieldN w).val := by
  rw [toNat_fieldNNN, val_fieldX, val_fieldY, val_fieldN]
  omega

/-- Settles O2: each field is its bit range of the word's number, and the overlaps are arithmetic on those. -/
theorem wordFields : Obligations.WordFields := fun w =>
  ⟨toNat_fieldOp w, val_fieldX w, val_fieldY w, val_fieldN w, toNat_fieldKK w, toNat_fieldNNN w,
    toNat_fieldKK_eq_digits w, toNat_fieldNNN_eq_digits w⟩

end Sys2Proof
end

section
/-! PROOFS. The opcode map of 30_encoding.md R57: the rows of R56 under one opcode nibble, tried in order. -/

namespace Sys2Proof

/-! ### Decoding among some rows of the table -/

/-- The decoder on a part of the table. -/
def decodeIn (rows : List Row) (w : Word) : Option Instr := (rows.find? fun r => r.accepts w).map fun r => r.build w

/-- The rows of R56 under an opcode nibble. -/
def rowsOf (op : Nibble) : List Row := opcodeTable.filter fun r => fieldOp r.matchBits == op

theorem decodeIn_nil (w : Word) : decodeIn [] w = none := rfl

/-- One row of the table: a word meets its test `c` and is built by it, or is left to the rows after it. -/
theorem decodeIn_cons_eq_ite {r : Row} {rows : List Row} {w : Word} {c : Prop} [Decidable c] {rest : Option Instr}
    (htest : r.accepts w = true ↔ c) (hrest : decodeIn rows w = rest) :
    decodeIn (r :: rows) w = if c then some (r.build w) else rest := by
  by_cases hc : c
  · simp [decodeIn, hc, htest.mpr hc]
  · simp [← hrest, decodeIn, hc, mt htest.mp hc]

/-- Every row of the table tests the whole opcode nibble. -/
theorem fieldOp_mask_of_mem_opcodeTable : ∀ r ∈ opcodeTable, fieldOp r.mask = 0xF := by decide

theorem fieldOp_and (v w : Word) : fieldOp (v &&& w) = fieldOp v &&& fieldOp w := by
  simp only [fieldOp, BitVec.extractLsb'_and]

theorem fieldOp_of_accepts {r : Row} {w : Word} (hmem : r ∈ opcodeTable) (h : r.accepts w = true) :
    fieldOp r.matchBits = fieldOp w := by
  have hbits : w &&& r.mask = r.matchBits := eq_of_beq h
  rw [← hbits, fieldOp_and, fieldOp_mask_of_mem_opcodeTable r hmem]
  exact nibble_and_F _

/-- Only the rows under a word's own opcode nibble matter. -/
theorem decode_eq_decodeIn_rowsOf (w : Word) : decode w = decodeIn (rowsOf (fieldOp w)) w := by
  rw [decode, decodeIn, rowsOf, List.find?_filter]
  congr 1
  refine List.find?_congr fun r hmem => ?_
  cases h : r.accepts w
  · simp
  · simp [fieldOp_of_accepts hmem h]

/-- Two bytes are equal when their hex digits are. -/
theorem nibbles_append_inj {c d t u : Nibble} : (c ++ d : Byte) = t ++ u ↔ c = t ∧ d = u := by
  constructor
  · intro h
    have hwords : ofNibbles 0 (nibbleOf 0) c d = ofNibbles 0 (nibbleOf 0) t u := by
      rw [← encodeXKK_eq, ← encodeXKK_eq, h]
    exact (ofNibbles_inj.mp hwords).2.2
  · rintro ⟨rfl, rfl⟩
    rfl

/-! ### The match test under a known opcode nibble, by the field that holds the selector (R52) -/

section
variable {r : Row} {w : Word} {p : Nibble}

theorem accepts_of_no_selector (hw : fieldOp w = p) (hmask : r.mask = 0xF000)
    (hbits : r.matchBits = ofNibbles p 0 0 0) : r.accepts w = true := by
  obtain ⟨a, b, c, d, rfl⟩ := exists_ofNibbles w
  rw [row_accepts_ofNibbles r a b c d p 0 0 0 0xF 0 0 0 hmask hbits]
  simpa using hw

theorem accepts_iff_fieldN (hw : fieldOp w = p) {n : RowCount} (hmask : r.mask = 0xF00F)
    (hbits : r.matchBits = ofNibbles p 0 0 (nibbleOf n)) : r.accepts w = true ↔ fieldN w = n := by
  obtain ⟨a, b, c, d, rfl⟩ := exists_ofNibbles w
  rw [row_accepts_ofNibbles r a b c d p 0 0 (nibbleOf n) 0xF 0 0 0xF hmask hbits]
  rw [fieldOp_ofNibbles] at hw
  simp [hw, ← BitVec.toFin_inj]

theorem accepts_iff_fieldKK (hw : fieldOp w = p) {kk : Byte} (hmask : r.mask = 0xF0FF)
    (hbits : r.matchBits = encodeXKK p 0 kk) : r.accepts w = true ↔ fieldKK w = kk := by
  obtain ⟨a, b, c, d, rfl⟩ := exists_ofNibbles w
  obtain ⟨t, u, rfl⟩ := exists_nibbles_byte kk
  rw [encodeXKK_eq] at hbits
  rw [row_accepts_ofNibbles r a b c d p 0 t u 0xF 0 0xF 0xF hmask hbits]
  rw [fieldOp_ofNibbles] at hw
  simp [hw, nibbles_append_inj]

theorem accepts_iff_eq (hmask : r.mask = 0xFFFF) : r.accepts w = true ↔ w = r.matchBits := by
  rw [Row.accepts, hmask, beq_iff_eq]
  exact Eq.congr_left BitVec.and_allOnes

/-! ### The decoder by opcode nibble, by the shape of a nibble's rows -/

/-- The decoder tries only the rows of the word's opcode nibble. -/
theorem decode_of_fieldOp (hw : fieldOp w = p) {o : Option Instr} (h : decodeIn (rowsOf p) w = o) : decode w = o := by
  rw [decode_eq_decodeIn_rowsOf, hw, h]

/-- A nibble with one row and no selector: every word decodes. -/
theorem decode_of_no_selector (hw : fieldOp w = p) (hrows : rowsOf p = [r]) (hmask : r.mask = 0xF000)
    (hbits : r.matchBits = ofNibbles p 0 0 0) : decode w = some (r.build w) := by
  have htest := iff_true_intro (accepts_of_no_selector hw hmask hbits)
  rw [decode_of_fieldOp hw rfl, hrows, decodeIn_cons_eq_ite htest (decodeIn_nil w), if_pos trivial]

/-- A nibble with one row, selected by the last digit. -/
theorem decode_of_one_fieldN (hw : fieldOp w = p) {n : RowCount} (hrows : rowsOf p = [r]) (hmask : r.mask = 0xF00F)
    (hbits : r.matchBits = ofNibbles p 0 0 (nibbleOf n)) :
    decode w = if fieldN w = n then some (r.build w) else none := by
  rw [decode_of_fieldOp hw rfl, hrows, decodeIn_cons_eq_ite (accepts_iff_fieldN hw hmask hbits) (decodeIn_nil w)]

end

theorem decode_of_fieldOp_0 {w : Word} (hw : fieldOp w = 0x0) :
    decode w = if w = 0x00E0 then some .cls else if w = 0x00EE then some .ret else none :=
  decode_of_fieldOp hw <|
    decodeIn_cons_eq_ite (accepts_iff_eq rfl) <| decodeIn_cons_eq_ite (accepts_iff_eq rfl) <| decodeIn_nil w

theorem decode_of_fieldOp_8 {w : Word} (hw : fieldOp w = 0x8) :
    decode w =
      if fieldN w = 0x0 then some (.ldReg (fieldX w) (fieldY w))
      else if fieldN w = 0x1 then some (.orReg (fieldX w) (fieldY w))
      else if fieldN w = 0x2 then some (.andReg (fieldX w) (fieldY w))
      else if fieldN w = 0x3 then some (.xorReg (fieldX w) (fieldY w))
      else if fieldN w = 0x4 then some (.addReg (fieldX w) (fieldY w))
      else if fieldN w = 0x5 then some (.sub (fieldX w) (fieldY w))
      else if fieldN w = 0x6 then some (.shr (fieldX w) (fieldY w))
      else if fieldN w = 0x7 then some (.subn (fieldX w) (fieldY w))
      else if fieldN w = 0xE then some (.shl (fieldX w) (fieldY w)) else none := by
  refine decode_of_fieldOp hw ?_
  iterate 9 refine decodeIn_cons_eq_ite (accepts_iff_fieldN hw rfl rfl) ?_
  exact decodeIn_nil w

theorem decode_of_fieldOp_F {w : Word} (hw : fieldOp w = 0xF) :
    decode w =
      if fieldKK w = 0x07 then some (.ldVxDt (fieldX w))
      else if fieldKK w = 0x15 then some (.ldDtVx (fieldX w))
      else if fieldKK w = 0x1E then some (.addI (fieldX w))
      else if fieldKK w = 0x29 then some (.ldF (fieldX w))
      else if fieldKK w = 0x33 then some (.ldB (fieldX w))
      else if fieldKK w = 0x55 then some (.ldMemVx (fieldX w))
      else if fieldKK w = 0x65 then some (.ldVxMem (fieldX w)) else none := by
  refine decode_of_fieldOp hw ?_
  iterate 7 refine decodeIn_cons_eq_ite (accepts_iff_fieldKK hw rfl rfl) ?_
  exact decodeIn_nil w

/-- Settles O5: each clause is the rows of R56 under its nibble, tried in the table's order; the ten clauses left to
the last line are the nibbles with one row and no selector. -/
theorem opcodeMapByNibble : Obligations.OpcodeMapByNibble := by
  intro w
  refine ⟨decode_of_fieldOp_0, ?_, ?_, ?_, ?_, ?_, ?_, ?_, ?_, ?_,
    fun h5 => decode_of_one_fieldN h5 rfl rfl rfl, fun h9 => decode_of_one_fieldN h9 rfl rfl rfl,
    decode_of_fieldOp_8, ?_, fun hE => decode_of_fieldOp hE (decodeIn_nil w), decode_of_fieldOp_F⟩
  all_goals exact fun hw => decode_of_no_selector hw rfl rfl rfl

end Sys2Proof
end

section
/-! PROOFS. The display family (40_display.md): `00E0`, and who writes the framebuffer (R67, R68, R76). -/

namespace Sys2Proof.Machine

/-! ### Framebuffer equality -/

/-- Settles O42: equality passes through `pix`, and `Framebuffer.ext_pix` is the converse. -/
theorem framebufferEqualityByPixels : Obligations.FramebufferEqualityByPixels := by
  intro fb fb'
  constructor
  · rintro rfl _ _ _ _
    rfl
  · exact Framebuffer.ext_pix

/-! ### Frames of the display family -/

theorem keepsAllBut_setFb (s : State) (fb : Framebuffer) : KeepsAllBut [.fb] s (s.setFb fb) :=
  ⟨fun _ _ => rfl, fun _ => rfl, fun _ => rfl, fun _ => ⟨rfl, rfl⟩, fun _ => rfl, rfl,
    fun h => absurd (List.mem_singleton.2 rfl) h, fun _ _ => rfl, fun _ => ⟨rfl, rfl⟩, rfl⟩

/-- A frame does not speak of the latch, so raising keeps it. -/
theorem KeepsAllBut.raise {parts : List Part} {s t : State} (h : KeepsAllBut parts s t) (f : Fault) :
    KeepsAllBut parts s (t.raise f) := h

theorem DrawFrame.keepsAllBut {s t : State} (h : DrawFrame s t) : KeepsAllBut [.fb, .v 15] s t := by
  obtain ⟨fb, vf, rfl⟩ := h
  refine ⟨fun x hx => ?_, fun _ => rfl, fun _ => rfl, fun _ => ⟨rfl, rfl⟩, fun _ => rfl, rfl,
    fun hfb => absurd List.mem_cons_self hfb, fun _ _ => rfl, fun _ => ⟨rfl, rfl⟩, rfl⟩
  have hne : x ≠ regVF := by simpa using hx
  exact State.readV_writeV_ne (s.setFb fb) vf hne

/-- What the display family may write, a `Dxyn` that faults included (R67). -/
theorem Effect.keepsAllBut_of_display {i : Instr} {s t : State} (h : Effect s t i)
    (hi : i = .cls ∨ ∃ x y n, i = .drw x y n) : KeepsAllBut [.fb, .v 15] s t := by
  obtain rfl | ⟨x, y, n, rfl⟩ := hi
  · obtain rfl := h
    exact (DrawFrame.setFb s Framebuffer.clear).keepsAllBut
  · obtain ⟨u, hu, rfl | ⟨j, _, _, rfl⟩⟩ := h
    · exact hu.keepsAllBut
    · exact hu.keepsAllBut.raise _

/-! ### Who writes the framebuffer -/

theorem Effect.Stored.fb_eq {bs : List Byte} {s t : State} (h : Effect.Stored bs s t) : t.fb = s.fb := by
  obtain ⟨_, rfl⟩ | ⟨_, _, _, _, rfl⟩ := h <;> rfl

/-- Outside the display family no instruction changes the framebuffer (10_state.md R23). -/
theorem Effect.fb_eq {i : Instr} {s t : State} (h : Effect s t i) (hcls : i ≠ .cls)
    (hdrw : ∀ x y n, i ≠ .drw x y n) : t.fb = s.fb := by
  cases i
  case cls => exact absurd rfl hcls
  case drw x y n => exact absurd rfl (hdrw x y n)
  case ret => obtain ⟨_, rfl⟩ | ⟨_, rfl⟩ := h <;> rfl
  case call => obtain ⟨_, rfl⟩ | ⟨_, rfl⟩ := h <;> rfl
  case ldB => exact Effect.Stored.fb_eq h
  case ldMemVx => exact Effect.Stored.fb_eq h
  case ldVxMem =>
    obtain ⟨u, hu, _, ht⟩ := h
    have hfb : u.fb = s.fb := (congrArg State.fb hu).trans (State.setV_fb s u.v)
    obtain rfl | ⟨_, _, _, rfl⟩ := ht <;> exact hfb
  all_goals
    obtain rfl := h
    rfl

/-- Settles O52: both halves are case analyses over `Effect`, the first for the framebuffer as a whole. -/
theorem onlyDisplayFamilyWritesPixels : Obligations.OnlyDisplayFamilyWritesPixels := by
  intro i s t hexec
  have heffect := exec_cases hexec
  refine ⟨fun ⟨hcls, hdrw⟩ px py _ _ => by rw [heffect.fb_eq hcls hdrw], fun hi => ?_⟩
  obtain ⟨hv, _, hpc, hstack, hdt, hst, _⟩ := heffect.keepsAllBut_of_display hi
  obtain ⟨hsp, hentries⟩ := hstack (by decide)
  exact ⟨hpc (by decide), hsp, hentries, hdt (by decide), hst, fun x hx => hv x (by simpa using hx)⟩

/-! ### `00E0` -/

theorem encodedAs_cls : EncodedAs 0x00E0 0xFFFF .cls :=
  ⟨BitVec.and_allOnes, (decode_of_fieldOp_0 (w := 0x00E0) rfl).trans (if_pos rfl)⟩

/-- Settles O37: the framebuffer becomes `Framebuffer.clear`, a constant, and no other field is written. -/
theorem clearTurnsEveryPixelOff : Obligations.ClearTurnsEveryPixelOff := by
  refine ⟨encodedAs_cls, fun s => ⟨s.setFb Framebuffer.clear, rfl, ?_, keepsAllBut_setFb s _, rfl⟩⟩
  intro px py _ _
  exact Framebuffer.pix_clear px py

end Sys2Proof.Machine
end

section
/-! PROOFS. The encoding of instructions with no selector, or with a selector in the last digit (30_encoding.md R52, R56):
the word meets its row, and decoding it gives the instruction back. -/

namespace Sys2Proof

/-! ### Fields of an encoded word -/

@[simp] theorem fieldOp_encodeNNN (op : Nibble) (nnn : Addr12) : fieldOp (encodeNNN op nnn) = op := by
  obtain ⟨b, c, d, rfl⟩ := exists_nibbles_addr nnn
  rw [encodeNNN_eq, fieldOp_ofNibbles]

@[simp] theorem fieldNNN_encodeNNN (op : Nibble) (nnn : Addr12) : fieldNNN (encodeNNN op nnn) = nnn := by
  obtain ⟨b, c, d, rfl⟩ := exists_nibbles_addr nnn
  rw [encodeNNN_eq, fieldNNN_ofNibbles]

@[simp] theorem fieldOp_encodeXKK (op : Nibble) (x : RegIdx) (kk : Byte) : fieldOp (encodeXKK op x kk) = op := by
  obtain ⟨c, d, rfl⟩ := exists_nibbles_byte kk
  rw [encodeXKK_eq, fieldOp_ofNibbles]

@[simp] theorem fieldX_encodeXKK (op : Nibble) (x : RegIdx) (kk : Byte) : fieldX (encodeXKK op x kk) = x := by
  obtain ⟨c, d, rfl⟩ := exists_nibbles_byte kk
  rw [encodeXKK_eq, fieldX_ofNibbles, toFin_nibbleOf]

@[simp] theorem fieldKK_encodeXKK (op : Nibble) (x : RegIdx) (kk : Byte) : fieldKK (encodeXKK op x kk) = kk := by
  obtain ⟨c, d, rfl⟩ := exists_nibbles_byte kk
  rw [encodeXKK_eq, fieldKK_ofNibbles]

@[simp] theorem fieldOp_encodeXYS (op : Nibble) (x y : RegIdx) (n : Nibble) : fieldOp (encodeXYS op x y n) = op :=
  fieldOp_ofNibbles op _ _ n

@[simp] theorem fieldX_encodeXYS (op : Nibble) (x y : RegIdx) (n : Nibble) : fieldX (encodeXYS op x y n) = x :=
  fieldX_ofNibbles op _ _ n

@[simp] theorem fieldY_encodeXYS (op : Nibble) (x y : RegIdx) (n : Nibble) : fieldY (encodeXYS op x y n) = y :=
  fieldY_ofNibbles op _ _ n

@[simp] theorem fieldN_encodeXYS (op : Nibble) (x y : RegIdx) (n : Nibble) : fieldN (encodeXYS op x y n) = n.toFin :=
  fieldN_ofNibbles op _ _ n

/-! ### Words of a nibble with one row -/

namespace Machine

/-- The only row under its opcode nibble, with no selector. -/
theorem encodedAs_of_no_selector (r : Row) {i : Instr} {p : Nibble} (hop : fieldOp (encode i) = p)
    (hrows : rowsOf p = [r]) (hmask : r.mask = 0xF000) (hbits : r.matchBits = ofNibbles p 0 0 0)
    (hbuild : r.build (encode i) = i) : EncodedAs r.matchBits r.mask i := by
  refine ⟨eq_of_beq (accepts_of_no_selector hop hmask hbits), ?_⟩
  rw [decode_of_no_selector hop hrows hmask hbits, hbuild]

/-- The only row under its opcode nibble, selected by a last digit of 0. -/
theorem encodedAs_of_last_digit_zero (r : Row) {i : Instr} {p : Nibble} (hop : fieldOp (encode i) = p)
    (hn : fieldN (encode i) = 0) (hrows : rowsOf p = [r]) (hmask : r.mask = 0xF00F)
    (hbits : r.matchBits = ofNibbles p 0 0 0) (hbuild : r.build (encode i) = i) : EncodedAs r.matchBits r.mask i := by
  refine ⟨eq_of_beq ((accepts_iff_fieldN hop hmask hbits).mpr hn), ?_⟩
  rw [decode_of_one_fieldN hop (n := 0) hrows hmask hbits, if_pos hn, hbuild]

end Machine

/-- Where only the last digit 0 is assigned, a word with another one is unsupported. -/
theorem decode_of_last_digit_ne_zero {r : Row} {p : Nibble} (hrows : rowsOf p = [r]) (hmask : r.mask = 0xF00F)
    (hbits : r.matchBits = ofNibbles p 0 0 0) (a b : Nibble) {n : Nibble} (hn : n ≠ 0) :
    decode (ofNibbles p a b n) = none := by
  have hdigit : fieldN (ofNibbles p a b n) ≠ 0 := by
    rw [fieldN_ofNibbles]
    exact fun h => hn (BitVec.toFin_inj.mp h)
  rw [decode_of_one_fieldN (fieldOp_ofNibbles p a b n) (n := 0) hrows hmask hbits, if_neg hdigit]

end Sys2Proof
end

section
/-! PROOFS. Control transfer (41_control_flow.md): jump, call and the four skips. -/

namespace Sys2Proof.Machine

/-! ### Encodings -/

theorem encodedAs_jp (nnn : Addr12) : EncodedAs 0x1000 0xF000 (.jp nnn) :=
  encodedAs_of_no_selector opcodeTable[2] (fieldOp_encodeNNN _ _) rfl rfl rfl (congrArg Instr.jp (fieldNNN_encodeNNN _ _))

theorem encodedAs_call (nnn : Addr12) : EncodedAs 0x2000 0xF000 (.call nnn) :=
  encodedAs_of_no_selector opcodeTable[3] (fieldOp_encodeNNN _ _) rfl rfl rfl
    (congrArg Instr.call (fieldNNN_encodeNNN _ _))

theorem encodedAs_seImm (x : RegIdx) (kk : Byte) : EncodedAs 0x3000 0xF000 (.seImm x kk) :=
  encodedAs_of_no_selector opcodeTable[4] (fieldOp_encodeXKK _ _ _) rfl rfl rfl
    (congrArg₂ Instr.seImm (fieldX_encodeXKK _ _ _) (fieldKK_encodeXKK _ _ _))

theorem encodedAs_sneImm (x : RegIdx) (kk : Byte) : EncodedAs 0x4000 0xF000 (.sneImm x kk) :=
  encodedAs_of_no_selector opcodeTable[5] (fieldOp_encodeXKK _ _ _) rfl rfl rfl
    (congrArg₂ Instr.sneImm (fieldX_encodeXKK _ _ _) (fieldKK_encodeXKK _ _ _))

theorem encodedAs_seReg (x y : RegIdx) : EncodedAs 0x5000 0xF00F (.seReg x y) :=
  encodedAs_of_last_digit_zero opcodeTable[6] (fieldOp_encodeXYS _ _ _ _) (fieldN_encodeXYS _ _ _ _) rfl rfl rfl
    (congrArg₂ Instr.seReg (fieldX_encodeXYS _ _ _ _) (fieldY_encodeXYS _ _ _ _))

theorem encodedAs_sneReg (x y : RegIdx) : EncodedAs 0x9000 0xF00F (.sneReg x y) :=
  encodedAs_of_last_digit_zero opcodeTable[18] (fieldOp_encodeXYS _ _ _ _) (fieldN_encodeXYS _ _ _ _) rfl rfl rfl
    (congrArg₂ Instr.sneReg (fieldX_encodeXYS _ _ _ _) (fieldY_encodeXYS _ _ _ _))

/-! ### Frames of control transfer -/

theorem frame_setPc (s : State) (w : Word) : Frame [.pc] s (s.setPc w) := ⟨keepsAllBut_setPc s w, rfl⟩

theorem frame_setStack_setPc (s : State) (stack : CallStack) (sp : StackCount) (w : Word) :
    Frame [.pc, .stack] s ((s.setStack stack sp).setPc w) :=
  ⟨⟨fun _ _ => rfl, fun _ => rfl, fun hpc => absurd List.mem_cons_self hpc,
    fun hstack => absurd (List.mem_cons_of_mem _ List.mem_cons_self) hstack, fun _ => rfl, rfl,
    fun _ _ _ _ _ => rfl, fun _ _ => rfl, fun _ => ⟨rfl, rfl⟩, rfl⟩, rfl⟩

/-! ### Jump and call -/

/-- Settles O15: the next PC is `absAddress nnn`, which does not mention the state. -/
theorem jumpSetsPc : Obligations.JumpSetsPc := fun nnn s =>
  ⟨encodedAs_jp nnn, s.setPc (absAddress nnn), rfl, toNat_absAddress nnn, frame_setPc s _⟩

theorem exec_call_of_lt (nnn : Addr12) {s : State} (h : s.sp.val < 16) :
    exec (.call nnn) s =
      .next ((s.setStack (s.stack.set s.sp.val s.pc) ⟨s.sp.val + 1, Nat.succ_lt_succ h⟩).setPc (absAddress nnn)) := by
  simp only [exec, execCall, push_ok s.pc h]

theorem exec_call_of_full (nnn : Addr12) {s : State} (h : s.sp.val = 16) :
    exec (.call nnn) s = .next (s.raise (.stackOverflow 16)) := by
  simp only [exec, execCall, push_full s.pc h]

/-- Settles O16: the two cases of `push`; a pushed entry is read back at SP, and no other entry moves. -/
theorem callPushesOrOverflows : Obligations.CallPushesOrOverflows := by
  refine fun nnn s => ⟨encodedAs_call nnn, fun hroom => ?_, fun hfull => ?_⟩
  · refine ⟨_, exec_call_of_lt nnn hroom, toNat_absAddress nnn, rfl, ?_, ?_, frame_setStack_setPc s _ _ _⟩
    · exact Vector.getElem_set_self hroom
    · exact fun k hk => Vector.getElem_set_ne hroom k.isLt (Ne.symm hk)
  · exact ⟨_, exec_call_of_full nnn hfull, rfl, (keepsAllBut_refl [] s).raise _⟩

/-! ### Skips -/

/-- What R86 says of the four skips: PC + 2 when the condition `c` holds, and PC kept under any `d` that excludes `c`. -/
theorem exec_skip {i : Instr} {s : State} {c d : Prop} [Decidable c] (hexec : exec i s = .next (skipIf (decide c) s))
    (hexcl : d → ¬ c) :
    ∃ t, exec i s = .next t ∧ Frame [.pc] s t ∧ (d → t.pc = s.pc) ∧
      (c → s.pc.toNat + 2 < 65536 → t.pc.toNat = s.pc.toNat + 2) := by
  rw [skipIf_eq] at hexec
  refine ⟨_, hexec, frame_setPc s _, fun hd => ?_, fun hc hfits => ?_⟩
  · simp [hexcl hd]
  · simp [hc, toNat_pcPlus2 hfits]

/-- Settles O17: `exec_skip` at the comparison of a register with a byte, and at its negation. -/
theorem skipOnByte : Obligations.SkipOnByte := fun x kk _ =>
  ⟨encodedAs_seImm x kk, encodedAs_sneImm x kk, exec_skip rfl id, exec_skip rfl not_not_intro⟩

/-- Settles O18: `exec_skip` at the comparison of two registers, and at its negation. -/
theorem skipOnRegister : Obligations.SkipOnRegister := fun x y _ =>
  ⟨encodedAs_seReg x y, encodedAs_sneReg x y,
    fun _ hn => ⟨decode_of_last_digit_ne_zero rfl rfl rfl _ _ hn, decode_of_last_digit_ne_zero rfl rfl rfl _ _ hn⟩,
    exec_skip rfl id, exec_skip rfl not_not_intro⟩

end Sys2Proof.Machine
end

section
/-! PROOFS. Register loads and the ALU (42_register_alu.md): the two byte instructions `6xkk` and `7xkk`. -/

namespace Sys2Proof.Machine

/-! ### Encodings -/

theorem encodedAs_ldImm (x : RegIdx) (kk : Byte) : EncodedAs 0x6000 0xF000 (.ldImm x kk) :=
  encodedAs_of_no_selector opcodeTable[7] (fieldOp_encodeXKK _ _ _) rfl rfl rfl
    (congrArg₂ Instr.ldImm (fieldX_encodeXKK _ _ _) (fieldKK_encodeXKK _ _ _))

theorem encodedAs_addImm (x : RegIdx) (kk : Byte) : EncodedAs 0x7000 0xF000 (.addImm x kk) :=
  encodedAs_of_no_selector opcodeTable[8] (fieldOp_encodeXKK _ _ _) rfl rfl rfl
    (congrArg₂ Instr.addImm (fieldX_encodeXKK _ _ _) (fieldKK_encodeXKK _ _ _))

/-! ### One register written -/

theorem frame_writeV (s : State) (x : RegIdx) (b : Byte) : Frame [.v x] s (s.writeV x b) :=
  ⟨keepsAllBut_writeV s x b, rfl⟩

/-- An instruction whose whole effect is to write one register: what that register then reads, and the frame. -/
theorem exec_writeV {i : Instr} {s : State} {x : RegIdx} {b : Byte} (hexec : exec i s = .next (s.writeV x b)) :
    ∃ t, exec i s = .next t ∧ t.readV x = b ∧ Frame [.v x] s t :=
  ⟨_, hexec, State.readV_writeV_self s x b, frame_writeV s x b⟩

/-! ### `6xkk` and `7xkk` -/

/-- Settles O20: both are one register write, the second of a byte sum, whose number is the sum modulo 256. -/
theorem loadAndAddByte : Obligations.LoadAndAddByte := by
  intro x kk s
  refine ⟨encodedAs_ldImm x kk, encodedAs_addImm x kk, exec_writeV rfl, ?_⟩
  have hwrite : exec (.addImm x kk) s = .next (s.writeV x (s.readV x + kk)) := rfl
  obtain ⟨t, hexec, hread, hframe⟩ := exec_writeV hwrite
  refine ⟨t, hexec, ?_, hframe⟩
  rw [hread, BitVec.toNat_add]

end Sys2Proof.Machine
end

section
/-! PROOFS. The encoding of the instructions under the nibble F, selected by the byte `kk` (30_encoding.md R52, R56). -/

namespace Sys2Proof

theorem mask_and_matchBits_of_mem_rowsOf_F :
    ∀ r ∈ rowsOf 0xF, r.mask = 0xF0FF ∧ r.matchBits = encodeXKK 0xF 0 (fieldKK r.matchBits) := by decide

/-- A row under the nibble F tests the byte `kk` of a word with that nibble. -/
theorem accepts_iff_of_mem_rowsOf_F {r : Row} (hmem : r ∈ rowsOf 0xF) {w : Word} (hw : fieldOp w = 0xF) :
    r.accepts w = true ↔ fieldKK w = fieldKK r.matchBits := by
  obtain ⟨hmask, hbits⟩ := mask_and_matchBits_of_mem_rowsOf_F r hmem
  exact accepts_iff_fieldKK hw hmask hbits

theorem decode_of_fieldKK {r : Row} {w : Word} (hw : fieldOp w = 0xF)
    (hfind : (rowsOf 0xF).find? (fun q => fieldKK w == fieldKK q.matchBits) = some r) :
    decode w = some (r.build w) := by
  have htests : (rowsOf 0xF).find? (fun q => q.accepts w) = some r := by
    rw [← hfind]
    exact List.find?_congr fun q hq => Bool.eq_iff_iff.mpr (by rw [accepts_iff_of_mem_rowsOf_F hq hw, beq_iff_eq])
  rw [decode_of_fieldOp hw rfl, decodeIn, htests, Option.map_some]

namespace Machine

/-- An instruction of format XS meets the first row under the nibble F whose selector is its own. -/
theorem encodedAs_of_encodeXS (r : Row) {i : Instr} {x : RegIdx} {ss : Byte} (hencode : encode i = encodeXS x ss)
    (hfind : (rowsOf 0xF).find? (fun q => ss == fieldKK q.matchBits) = some r)
    (hbuild : r.build (encodeXS x ss) = i) : EncodedAs r.matchBits r.mask i := by
  have hop : fieldOp (encodeXS x ss) = 0xF := fieldOp_encodeXKK _ _ _
  have hkk : fieldKK (encodeXS x ss) = ss := fieldKK_encodeXKK _ _ _
  have hmem : r ∈ rowsOf 0xF := List.mem_of_find?_eq_some hfind
  have hselector : ss = fieldKK r.matchBits := by simpa using List.find?_some hfind
  rw [EncodedAs, hencode]
  refine ⟨eq_of_beq ((accepts_iff_of_mem_rowsOf_F hmem hop).mpr (hkk.trans hselector)), ?_⟩
  rw [decode_of_fieldKK hop (hkk.symm ▸ hfind), hbuild]

end Machine
end Sys2Proof
end

section
/-! PROOFS. The index register and the delay timer (43_index_memory_timer.md): `Annn`, `Fx07` and `Fx15`. -/

namespace Sys2Proof.Machine

/-! ### Encodings -/

theorem encodedAs_ldI (nnn : Addr12) : EncodedAs 0xA000 0xF000 (.ldI nnn) :=
  encodedAs_of_no_selector opcodeTable[19] (fieldOp_encodeNNN _ _) rfl rfl rfl
    (congrArg Instr.ldI (fieldNNN_encodeNNN _ _))

theorem encodedAs_ldVxDt (x : RegIdx) : EncodedAs 0xF007 0xF0FF (.ldVxDt x) :=
  encodedAs_of_encodeXS opcodeTable[23] rfl rfl (congrArg Instr.ldVxDt (fieldX_encodeXKK _ _ _))

theorem encodedAs_ldDtVx (x : RegIdx) : EncodedAs 0xF015 0xF0FF (.ldDtVx x) :=
  encodedAs_of_encodeXS opcodeTable[24] rfl rfl (congrArg Instr.ldDtVx (fieldX_encodeXKK _ _ _))

/-! ### Frames -/

theorem frame_setI (s : State) (w : Word) : Frame [.i] s (s.setI w) := ⟨keepsAllBut_setI s w, rfl⟩

theorem keepsAllBut_setDt (s : State) (b : Byte) : KeepsAllBut [.dt] s (s.setDt b) :=
  ⟨fun _ _ => rfl, fun _ => rfl, fun _ => rfl, fun _ => ⟨rfl, rfl⟩, fun hdt => absurd List.mem_cons_self hdt, rfl,
    fun _ _ _ _ _ => rfl, fun _ _ => rfl, fun _ => ⟨rfl, rfl⟩, rfl⟩

theorem frame_setDt (s : State) (b : Byte) : Frame [.dt] s (s.setDt b) := ⟨keepsAllBut_setDt s b, rfl⟩

/-! ### `Annn`, `Fx07` and `Fx15` -/

/-- Settles O28: I becomes `absAddress nnn`, a 12-bit number. -/
theorem loadIndexAddress : Obligations.LoadIndexAddress := fun nnn s =>
  ⟨encodedAs_ldI nnn, s.setI (absAddress nnn), rfl, toNat_absAddress nnn, frame_setI s _⟩

/-- Settles O30: the read is one register write, and the write of DT touches no other field. -/
theorem delayTimerMoves : Obligations.DelayTimerMoves := fun x s =>
  ⟨encodedAs_ldVxDt x, encodedAs_ldDtVx x, exec_writeV rfl,
    s.setDt (s.readV x), rfl, State.setDt_dt s _, frame_setDt s _⟩

end Sys2Proof.Machine
end

section
/-! PROOFS. Who raises a fault, and the addresses a memory fault records (60_exceptions.md R112, R114..R116). -/

namespace Sys2Proof.Machine

/-! ### Checked accesses -/

theorem memRead_eq_error_iff {s : State} {a : Nat} :
    memRead s a = .error (.memoryOutOfRange a) ↔ Config.memSize ≤ a := by
  refine ⟨fun h => ?_, memRead_error⟩
  by_contra hin
  rw [memRead_ok (Nat.lt_of_not_le hin)] at h
  cases h

theorem memWrite_eq_error_iff {p : Config.FontWritePolicy} {s : State} {a : Nat} {b : Byte} :
    memWrite p s a b = .error (.memoryOutOfRange a) ↔ Config.memSize ≤ a := by
  refine ⟨fun h => ?_, memWrite_error b⟩
  by_contra hin
  rw [memWrite, if_neg hin] at h
  split at h <;> cases h

theorem fetchWord_eq_error {s : State} {a : Nat} (h : fetchWord s = .error (.memoryOutOfRange a)) :
    Config.memSize ≤ a ∧ (a = s.pc.toNat ∨ a = s.pc.toNat + 1) := by
  obtain ⟨_, hok⟩ | ⟨hpc, herror⟩ | ⟨hpc, herror⟩ := fetchWord_cases s
  · cases hok.symm.trans h
  · cases herror.symm.trans h
    exact ⟨hpc.ge, .inr rfl⟩
  · cases herror.symm.trans h
    exact ⟨hpc, .inl rfl⟩

/-! ### What an instruction does to the status latch -/

/-- The fault of an access to one of the `count` bytes from I on, at an address that does not exist. -/
def DataFault (s : State) (count : Nat) (f : Fault) : Prop :=
  ∃ k, k < count ∧ Config.memSize ≤ s.i.toNat + k ∧ f = .memoryOutOfRange (s.i.toNat + k)

/-- The faults an instruction may raise in `s`: the kinds of R114, R115 and R116 with the information they record. -/
def MayRaise (s : State) (f : Fault) : Instr → Prop
  | .ret => f = .stackUnderflow 0
  | .call _ => f = .stackOverflow 16
  | .drw _ _ n => DataFault s n.val f
  | .ldB _ => DataFault s 3 f
  | .ldMemVx x | .ldVxMem x => DataFault s (x.val + 1) f
  | _ => False

theorem DrawFrame.status_eq {s t : State} (h : DrawFrame s t) : t.status = s.status := by
  obtain ⟨_, _, rfl⟩ := h
  rfl

theorem Effect.Stored.status_cases {bs : List Byte} {s t : State} (h : Effect.Stored bs s t) :
    t.status = s.status ∨ ∃ f, DataFault s bs.length f ∧ t.status = .faulted f := by
  obtain ⟨_, rfl⟩ | ⟨k, hk, _, hout, rfl⟩ := h
  · exact .inl rfl
  · exact .inr ⟨_, ⟨k, hk, hout, rfl⟩, rfl⟩

/-- An instruction keeps the latch, or latches one of the faults it may raise. -/
theorem Effect.status_cases {i : Instr} {s t : State} (h : Effect s t i) :
    t.status = s.status ∨ ∃ f, MayRaise s f i ∧ t.status = .faulted f := by
  cases i
  case ret =>
    obtain ⟨_, rfl⟩ | ⟨_, rfl⟩ := h
    · exact .inl rfl
    · exact .inr ⟨_, rfl, rfl⟩
  case call =>
    obtain ⟨_, rfl⟩ | ⟨_, rfl⟩ := h
    · exact .inl rfl
    · exact .inr ⟨_, rfl, rfl⟩
  case drw x y n =>
    obtain ⟨u, hu, rfl | ⟨k, hk, hout, rfl⟩⟩ := h
    · exact .inl hu.status_eq
    · exact .inr ⟨_, ⟨k, hk, hout, rfl⟩, rfl⟩
  case ldB x => exact Effect.Stored.status_cases h
  case ldMemVx x =>
    have hstatus := Effect.Stored.status_cases h
    rwa [length_regBlock] at hstatus
  case ldVxMem x =>
    obtain ⟨u, hu, _, rfl | ⟨k, hk, hout, rfl⟩⟩ := h
    · exact .inl ((congrArg State.status hu).trans (State.setV_status s _))
    · exact .inr ⟨_, ⟨k, Nat.lt_succ_of_le hk, hout, rfl⟩, rfl⟩
  all_goals
    obtain rfl := h
    exact .inl rfl

/-- A fault latched by an instruction that began on a running block is one the instruction may raise. -/
theorem mayRaise_of_exec {i : Instr} {s t : State} {f : Fault} (hrun : s.isRunning) (hexec : exec i s = .next t)
    (hfault : t.status = .faulted f) : MayRaise s f i := by
  obtain hkept | ⟨g, hg, hlatched⟩ := (exec_cases hexec).status_cases
  · cases (hkept.trans hrun).symm.trans hfault
  · cases hlatched.symm.trans hfault
    exact hg

theorem DataFault.memoryOutOfRange {s : State} {count a : Nat} (h : DataFault s count (.memoryOutOfRange a)) :
    Config.memSize ≤ a ∧ ∃ k, k < count ∧ a = s.i.toNat + k := by
  obtain ⟨k, hk, hout, hf⟩ := h
  cases hf
  exact ⟨hout, k, hk, rfl⟩

/-! ### `MemoryOutOfRange` -/

/-- Settles O13: the accesses fault at `memSize` and above, and an instruction's fault is one `MayRaise` lists. -/
theorem memoryOutOfRangeRaisers : Obligations.MemoryOutOfRangeRaisers := by
  refine ⟨fun _ _ => memRead_eq_error_iff, fun _ _ _ _ => memWrite_eq_error_iff, fun _ _ => fetchWord_eq_error, ?_⟩
  intro i s t a hrun hexec hfault
  have hraise : MayRaise s (.memoryOutOfRange a) i := mayRaise_of_exec hrun hexec hfault
  cases i
  case drw x y n =>
    obtain ⟨hout, haddr⟩ := hraise.memoryOutOfRange
    exact ⟨hout, .inl ⟨x, y, n, rfl, haddr⟩⟩
  case ldB x =>
    obtain ⟨hout, haddr⟩ := hraise.memoryOutOfRange
    exact ⟨hout, .inr (.inl ⟨x, rfl, haddr⟩)⟩
  case ldMemVx x =>
    obtain ⟨hout, k, hk, ha⟩ := hraise.memoryOutOfRange
    exact ⟨hout, .inr (.inr ⟨x, .inl rfl, k, Nat.le_of_lt_succ hk, ha⟩)⟩
  case ldVxMem x =>
    obtain ⟨hout, k, hk, ha⟩ := hraise.memoryOutOfRange
    exact ⟨hout, .inr (.inr ⟨x, .inr rfl, k, Nat.le_of_lt_succ hk, ha⟩)⟩
  all_goals cases hraise

end Sys2Proof.Machine
end

section
/-! PROOFS. Decoding and encoding as inverses (30_encoding.md sections 1 and 2): no word meets two rows of R56, so the row
that accepts an instruction's word is the one the decoder takes, and a row's fields write its word again. -/

namespace Sys2Proof

/-! ### Rows are disjoint (R59) -/

/-- The two rows demand different values of some bit that both test. -/
def Row.Conflicts (r r' : Row) : Prop := r.matchBits &&& r'.mask ≠ r'.matchBits &&& r.mask

theorem Row.Conflicts.not_both_accept {r r' : Row} (h : r.Conflicts r') (w : Word) :
    ¬ (r.accepts w = true ∧ r'.accepts w = true) := by
  rintro ⟨hr, hr'⟩
  have hbits : w &&& r.mask = r.matchBits := eq_of_beq hr
  have hbits' : w &&& r'.mask = r'.matchBits := eq_of_beq hr'
  refine h ?_
  rw [← hbits, ← hbits', BitVec.and_assoc, BitVec.and_assoc, BitVec.and_comm r.mask]

theorem pairwise_conflicts_opcodeTable : opcodeTable.Pairwise Row.Conflicts := by
  unfold Row.Conflicts
  decide

/-- Settles O6: any two rows of R56 differ on a bit that both test. -/
theorem opcodeRowsDisjoint : Obligations.OpcodeRowsDisjoint :=
  pairwise_conflicts_opcodeTable.imp Row.Conflicts.not_both_accept

/-! ### Decoding an encoded instruction -/

theorem eq_of_both_accept {r r' : Row} {w : Word} (hr : r ∈ opcodeTable) (hr' : r' ∈ opcodeTable)
    (haccepts : r.accepts w = true) (haccepts' : r'.accepts w = true) : r = r' := by
  by_contra hne
  have hsymm : Std.Symm Row.Conflicts := ⟨fun _ _ h => h.symm⟩
  exact (pairwise_conflicts_opcodeTable.forall hr hr' hne).not_both_accept w ⟨haccepts, haccepts'⟩

theorem accepts_of_find? {r : Row} {w : Word} (h : opcodeTable.find? (fun q => q.accepts w) = some r) :
    r ∈ opcodeTable ∧ r.accepts w = true :=
  ⟨List.mem_of_find?_eq_some h, List.find?_some (p := fun q : Row => q.accepts w) h⟩

/-- The decoder takes the row that accepts the word, whatever its place in the table. -/
theorem decode_of_accepts {r : Row} {w : Word} (hr : r ∈ opcodeTable) (haccepts : r.accepts w = true) :
    decode w = some (r.build w) := by
  cases hfind : opcodeTable.find? fun q => q.accepts w with
  | none => exact absurd haccepts (by simpa using List.find?_eq_none.mp hfind r hr)
  | some q =>
    obtain ⟨hq, hqaccepts⟩ := accepts_of_find? hfind
    obtain rfl : q = r := eq_of_both_accept hq hr hqaccepts haccepts
    rw [decode, hfind, Option.map_some]

open Laws in
/-- Every instruction has a row of R56 for its own. -/
theorem rowMatch : ∀ i : Instr, RowMatch.Statement i
  | .cls => RowMatch.cls
  | .ret => RowMatch.ret
  | .jp nnn => RowMatch.jp nnn
  | .call nnn => RowMatch.call nnn
  | .seImm x kk => RowMatch.seImm x kk
  | .sneImm x kk => RowMatch.sneImm x kk
  | .seReg x y => RowMatch.seReg x y
  | .ldImm x kk => RowMatch.ldImm x kk
  | .addImm x kk => RowMatch.addImm x kk
  | .ldReg x y => RowMatch.ldReg x y
  | .orReg x y => RowMatch.orReg x y
  | .andReg x y => RowMatch.andReg x y
  | .xorReg x y => RowMatch.xorReg x y
  | .addReg x y => RowMatch.addReg x y
  | .sub x y => RowMatch.sub x y
  | .shr x y => RowMatch.shr x y
  | .subn x y => RowMatch.subn x y
  | .shl x y => RowMatch.shl x y
  | .sneReg x y => RowMatch.sneReg x y
  | .ldI nnn => RowMatch.ldI nnn
  | .jpV0 nnn => RowMatch.jpV0 nnn
  | .rnd x kk => RowMatch.rnd x kk
  | .drw x y n => RowMatch.drw x y n
  | .ldVxDt x => RowMatch.ldVxDt x
  | .ldDtVx x => RowMatch.ldDtVx x
  | .addI x => RowMatch.addI x
  | .ldF x => RowMatch.ldF x
  | .ldB x => RowMatch.ldB x
  | .ldMemVx x => RowMatch.ldMemVx x
  | .ldVxMem x => RowMatch.ldVxMem x

/-- Settles O3: the instruction's own row accepts its word, and no other row does. -/
theorem decodeInvertsEncode : Obligations.DecodeInvertsEncode := by
  intro i
  obtain ⟨r, hr, haccepts, hbuild⟩ := rowMatch i
  rw [decode_of_accepts hr haccepts, hbuild]

/-! ### A word is its fields, in each format of R52 -/

theorem encodeNNN_fields (w : Word) : encodeNNN (fieldOp w) (fieldNNN w) = w := by
  obtain ⟨a, b, c, d, rfl⟩ := exists_ofNibbles w
  rw [fieldOp_ofNibbles, fieldNNN_ofNibbles, encodeNNN_eq]

theorem encodeXKK_fields (w : Word) : encodeXKK (fieldOp w) (fieldX w) (fieldKK w) = w := by
  obtain ⟨a, b, c, d, rfl⟩ := exists_ofNibbles w
  rw [fieldOp_ofNibbles, fieldX_ofNibbles, fieldKK_ofNibbles, encodeXKK_eq, nibbleOf_toFin]

theorem encodeXYS_fields (w : Word) : encodeXYS (fieldOp w) (fieldX w) (fieldY w) (nibbleOf (fieldN w)) = w := by
  obtain ⟨a, b, c, d, rfl⟩ := exists_ofNibbles w
  simp [encodeXYS]

/-! ### Encoding a decoded word -/

/-- The instruction that the row reads from a word it accepts encodes to that word. -/
def Row.Rebuilds (r : Row) : Prop := ∀ w : Word, r.accepts w = true → encode (r.build w) = w

section
variable {r : Row}

/-- A row that tests the whole opcode nibble fixes it. -/
theorem fieldOp_eq_of_accepts {p : Nibble} {w : Word} (hmask : fieldOp r.mask = 0xF) (hbits : fieldOp r.matchBits = p)
    (haccepts : r.accepts w = true) : fieldOp w = p := by
  have hmasked : w &&& r.mask = r.matchBits := eq_of_beq haccepts
  rw [← hbits, ← hmasked, fieldOp_and, hmask]
  exact (nibble_and_F _).symm

theorem rebuilds_of_fixed (hmask : r.mask = 0xFFFF) (hencode : ∀ w, encode (r.build w) = r.matchBits) : r.Rebuilds := by
  intro w haccepts
  rw [hencode, (accepts_iff_eq hmask).mp haccepts]

theorem rebuilds_of_NNN (p : Nibble) (hmask : fieldOp r.mask = 0xF) (hbits : fieldOp r.matchBits = p)
    (hencode : ∀ w, encode (r.build w) = encodeNNN p (fieldNNN w)) : r.Rebuilds := by
  intro w haccepts
  rw [hencode, ← fieldOp_eq_of_accepts hmask hbits haccepts, encodeNNN_fields]

theorem rebuilds_of_XKK (p : Nibble) (hmask : fieldOp r.mask = 0xF) (hbits : fieldOp r.matchBits = p)
    (hencode : ∀ w, encode (r.build w) = encodeXKK p (fieldX w) (fieldKK w)) : r.Rebuilds := by
  intro w haccepts
  rw [hencode, ← fieldOp_eq_of_accepts hmask hbits haccepts, encodeXKK_fields]

theorem rebuilds_of_XYN (p : Nibble) (hmask : fieldOp r.mask = 0xF) (hbits : fieldOp r.matchBits = p)
    (hencode : ∀ w, encode (r.build w) = encodeXYS p (fieldX w) (fieldY w) (nibbleOf (fieldN w))) : r.Rebuilds := by
  intro w haccepts
  rw [hencode, ← fieldOp_eq_of_accepts hmask hbits haccepts, encodeXYS_fields]

theorem rebuilds_of_XYS (p : Nibble) (n : RowCount) (hmask : r.mask = 0xF00F)
    (hbits : r.matchBits = ofNibbles p 0 0 (nibbleOf n))
    (hencode : ∀ w, encode (r.build w) = encodeXYS p (fieldX w) (fieldY w) (nibbleOf n)) : r.Rebuilds := by
  intro w haccepts
  have hop : fieldOp w = p := fieldOp_eq_of_accepts (hmask ▸ rfl) (hbits ▸ fieldOp_ofNibbles _ _ _ _) haccepts
  have hn : fieldN w = n := (accepts_iff_fieldN hop hmask hbits).mp haccepts
  rw [hencode, ← hop, ← hn, encodeXYS_fields]

theorem rebuilds_of_XS (kk : Byte) (hmask : r.mask = 0xF0FF) (hbits : r.matchBits = encodeXKK 0xF 0 kk)
    (hencode : ∀ w, encode (r.build w) = encodeXS (fieldX w) kk) : r.Rebuilds := by
  intro w haccepts
  have hop : fieldOp w = 0xF := fieldOp_eq_of_accepts (hmask ▸ rfl) (hbits ▸ fieldOp_encodeXKK _ _ _) haccepts
  have hkk : fieldKK w = kk := (accepts_iff_fieldKK hop hmask hbits).mp haccepts
  rw [hencode, encodeXS, ← hop, ← hkk, encodeXKK_fields]

end

/-- Every row of R56 by its format (R52). -/
theorem rebuilds_of_mem_opcodeTable : ∀ r ∈ opcodeTable, r.Rebuilds := by
  rw [← List.forall_iff_forall_mem]
  exact ⟨rebuilds_of_fixed rfl fun _ => rfl, rebuilds_of_fixed rfl fun _ => rfl,
    rebuilds_of_NNN 0x1 rfl rfl fun _ => rfl, rebuilds_of_NNN 0x2 rfl rfl fun _ => rfl,
    rebuilds_of_XKK 0x3 rfl rfl fun _ => rfl, rebuilds_of_XKK 0x4 rfl rfl fun _ => rfl,
    rebuilds_of_XYS 0x5 0x0 rfl rfl fun _ => rfl,
    rebuilds_of_XKK 0x6 rfl rfl fun _ => rfl, rebuilds_of_XKK 0x7 rfl rfl fun _ => rfl,
    rebuilds_of_XYS 0x8 0x0 rfl rfl fun _ => rfl, rebuilds_of_XYS 0x8 0x1 rfl rfl fun _ => rfl,
    rebuilds_of_XYS 0x8 0x2 rfl rfl fun _ => rfl, rebuilds_of_XYS 0x8 0x3 rfl rfl fun _ => rfl,
    rebuilds_of_XYS 0x8 0x4 rfl rfl fun _ => rfl, rebuilds_of_XYS 0x8 0x5 rfl rfl fun _ => rfl,
    rebuilds_of_XYS 0x8 0x6 rfl rfl fun _ => rfl, rebuilds_of_XYS 0x8 0x7 rfl rfl fun _ => rfl,
    rebuilds_of_XYS 0x8 0xE rfl rfl fun _ => rfl, rebuilds_of_XYS 0x9 0x0 rfl rfl fun _ => rfl,
    rebuilds_of_NNN 0xA rfl rfl fun _ => rfl, rebuilds_of_NNN 0xB rfl rfl fun _ => rfl,
    rebuilds_of_XKK 0xC rfl rfl fun _ => rfl, rebuilds_of_XYN 0xD rfl rfl fun _ => rfl,
    rebuilds_of_XS 0x07 rfl rfl fun _ => rfl, rebuilds_of_XS 0x15 rfl rfl fun _ => rfl,
    rebuilds_of_XS 0x1E rfl rfl fun _ => rfl, rebuilds_of_XS 0x29 rfl rfl fun _ => rfl,
    rebuilds_of_XS 0x33 rfl rfl fun _ => rfl, rebuilds_of_XS 0x55 rfl rfl fun _ => rfl,
    rebuilds_of_XS 0x65 rfl rfl fun _ => rfl⟩

/-- Settles O4: the row the decoder took writes its word again. -/
theorem encodeInvertsDecode : Obligations.EncodeInvertsDecode := by
  intro w i h
  obtain ⟨r, hfind, rfl⟩ := Option.map_eq_some_iff.mp h
  obtain ⟨hr, haccepts⟩ := accepts_of_find? hfind
  exact rebuilds_of_mem_opcodeTable r hr w haccepts

/-- Settles O1: closed words, the table tried row by row. -/
theorem sampleWordsDecode : Obligations.SampleWordsDecode := by
  unfold Obligations.SampleWordsDecode
  decide

end Sys2Proof
end

section
/-! PROOFS. The cycle (30_encoding.md R62, R63): what `Step` and `Execute` do on a running block, and what a faulted block
refuses (60_exceptions.md R118). -/

namespace Sys2Proof.Machine

/-! ### One transaction -/

theorem whenRunning_of_running (act : State → Result) {s : State} (h : s.isRunning) : whenRunning act s = act s := by
  simp only [whenRunning, show s.status = .running from h]

theorem whenRunning_of_faulted (act : State → Result) {s : State} {f : Fault} (h : s.status = .faulted f) :
    whenRunning act s = .fault f := by
  simp only [whenRunning, h]

theorem decodeExec_of_some {w : Word} {i : Instr} (h : decode w = some i) (s : State) : decodeExec w s = exec i s := by
  simp only [decodeExec, h]

theorem decodeExec_of_none {w : Word} (h : decode w = none) (s : State) :
    decodeExec w s = .next (s.raise (.unsupportedInstruction w)) := by
  simp only [decodeExec, h]

theorem step_of_fetch_ok {s : State} {w : Word} (hrun : s.isRunning) (h : fetchWord s = .ok w) :
    step s = decodeExec w s.begun.advance := by
  simp only [step, whenRunning_of_running _ hrun, fetchDecodeExec, h]

theorem step_of_fetch_error {s : State} {f : Fault} (hrun : s.isRunning) (h : fetchWord s = .error f) :
    step s = .next (s.begun.raise f) := by
  simp only [step, whenRunning_of_running _ hrun, fetchDecodeExec, h]

theorem execute_of_running (w : Word) {s : State} (hrun : s.isRunning) : execute w s = decodeExec w s.begun :=
  whenRunning_of_running _ hrun

/-- Settles O11: all four transactions ask the latch first. -/
theorem faultedBlockStaysFaulted : Obligations.FaultedBlockStaysFaulted := by
  intro f tr s h
  cases tr with
  | load bytes => exact whenRunning_of_faulted (loadImage bytes) h
  | step => exact whenRunning_of_faulted fetchDecodeExec h
  | execute w => exact whenRunning_of_faulted (fun t => decodeExec w t.begun) h
  | tickDelay => exact whenRunning_of_faulted (fun t => .next (t.setDt (tickByte t.dt))) h

/-! ### `Step` -/

/-- Past a word that lies inside memory PC is the plain sum, and the load window is closed. -/
theorem begun_advance_eq {s : State} (h : s.pc.toNat + 1 < 4096) :
    s.begun.advance = (s.setLoadOpen false).setPc (s.pc + 2) := by
  rw [State.advance, State.begun_pc, pcPlus2_eq (by omega), State.begun]

/-- Settles O7: the fetch reads the two bytes, and their word decodes. -/
theorem stepRunsDecodedInstruction : Obligations.StepRunsDecodedInstruction := by
  intro s i hrun hpc hdecode
  rw [step_of_fetch_ok hrun (fetchWord_ok hpc), decodeExec_of_some hdecode, begun_advance_eq hpc]

/-- Settles O8: the first two clauses are the fetch's faults, the third is the decoder's. -/
theorem stepFetchAndDecodeFaults : Obligations.StepFetchAndDecodeFaults := by
  intro s hrun
  refine ⟨fun hpc => ?_, fun hpc => ?_, fun hpc hdecode => ?_⟩
  · have hfetch : fetchWord s = .error (.memoryOutOfRange s.pc.toNat) := by
      simp only [fetchWord, memRead_error hpc]
    exact step_of_fetch_error hrun hfetch
  · have hfetch : fetchWord s = .error (.memoryOutOfRange 0x1000) := by
      simp only [fetchWord, hpc, memRead_ok (show 0xFFF < Config.memSize by decide), Nat.reduceAdd,
        memRead_error (show Config.memSize ≤ 0x1000 by decide)]
    exact step_of_fetch_error hrun hfetch
  · rw [step_of_fetch_ok hrun (fetchWord_ok hpc), decodeExec_of_none hdecode, begun_advance_eq hpc]

/-- Settles O48: the two bytes at 0x200 read as zero, and 0x0000 is none of R56's words. -/
theorem unloadedFirstStepFaults : Obligations.UnloadedFirstStepFaults := by
  obtain ⟨_, _, hunsupported⟩ := stepFetchAndDecodeFaults State.reset rfl
  exact ⟨_, hunsupported (by decide) (by decide), rfl, rfl⟩

/-! ### `Execute` -/

/-- Settles O9: `Execute` is `decodeExec` on the state with the window closed. -/
theorem executeWithoutFetch : Obligations.ExecuteWithoutFetch := by
  intro w s hrun
  rw [execute_of_running w hrun]
  exact ⟨fun i hdecode => decodeExec_of_some hdecode _, fun hdecode => decodeExec_of_none hdecode _⟩

end Sys2Proof.Machine
end

section
/-! PROOFS. What each instruction may write and which fault it may raise (10_state.md sections 1 to 4): one frame for each
instruction, from which the whole-machine rules follow. -/

namespace Sys2Proof.Machine

/-! ### The parts an instruction may write -/

/-- The parts that an instruction's rule names as written, whether it raises or not. -/
def writtenParts : Instr → List Part
  | .cls => [.fb]
  | .ret | .call _ => [.pc, .stack]
  | .jp _ | .jpV0 _ | .seImm _ _ | .sneImm _ _ | .seReg _ _ | .sneReg _ _ => [.pc]
  | .ldImm x _ | .addImm x _ | .ldReg x _ | .orReg x _ | .andReg x _ | .xorReg x _ | .ldVxDt x => [.v x]
  | .addReg x _ | .sub x _ | .shr x _ | .subn x _ | .shl x _ => [.v x, .v 15]
  | .ldI _ | .addI _ | .ldF _ => [.i]
  | .rnd x _ => [.v x, .rand]
  | .drw _ _ _ => [.fb, .v 15]
  | .ldDtVx _ => [.dt]
  | .ldB _ | .ldMemVx _ => [.mem]
  | .ldVxMem x => vBelow (x.val + 1)

theorem keepsAllBut_writeV_writeV (s : State) (x y : RegIdx) (a b : Byte) :
    KeepsAllBut [.v x, .v y] s ((s.writeV x a).writeV y b) := by
  refine ⟨fun j hj => ?_, fun _ => rfl, fun _ => rfl, fun _ => ⟨rfl, rfl⟩, fun _ => rfl, rfl, fun _ _ _ _ _ => rfl,
    fun _ _ => rfl, fun _ => ⟨rfl, rfl⟩, rfl⟩
  obtain ⟨hjx, hjy⟩ : j ≠ x ∧ j ≠ y := by simpa using hj
  rw [State.readV_writeV_ne _ _ hjy, State.readV_writeV_ne _ _ hjx]

theorem keepsAllBut_setRand_writeV (s : State) (queue : List Byte) (drawn : Nat) (x : RegIdx) (b : Byte) :
    KeepsAllBut [.v x, .rand] s ((s.setRand queue drawn).writeV x b) := by
  refine ⟨fun j hj => ?_, fun _ => rfl, fun _ => rfl, fun _ => ⟨rfl, rfl⟩, fun _ => rfl, rfl, fun _ _ _ _ _ => rfl,
    fun _ _ => rfl, fun hrand => absurd (List.mem_cons_of_mem _ List.mem_cons_self) hrand, rfl⟩
  have hjx : j ≠ x := by simpa using hj
  exact State.readV_writeV_ne _ _ hjx

/-- A load of registers below `count`. -/
theorem keepsAllBut_setV_vBelow {s u : State} {count : Nat} (hu : u = s.setV u.v)
    (hread : ∀ j : RegIdx, count ≤ j.val → u.readV j = s.readV j) : KeepsAllBut (vBelow count) s u := by
  refine ⟨fun j hj => hread j (Nat.le_of_not_lt (mt (mem_vBelow j count).mpr hj)), ?_⟩
  rw [hu]
  exact ⟨fun _ => rfl, fun _ => rfl, fun _ => ⟨rfl, rfl⟩, fun _ => rfl, rfl, fun _ _ _ _ _ => rfl, fun _ _ => rfl,
    fun _ => ⟨rfl, rfl⟩, rfl⟩

theorem Effect.Stored.keepsAllBut {bs : List Byte} {s t : State} (h : Effect.Stored bs s t) :
    KeepsAllBut [.mem] s t := by
  obtain ⟨_, rfl⟩ | ⟨_, _, _, _, rfl⟩ := h
  · exact keepsAllBut_setMem s _
  · exact (keepsAllBut_setMem s _).raise _

/-- The frame of every instruction, whether it raises or not. -/
theorem Effect.keepsAllBut {i : Instr} {s t : State} (h : Effect s t i) : KeepsAllBut (writtenParts i) s t := by
  cases i
  case cls => exact (h : t = _) ▸ keepsAllBut_setFb s _
  case ret =>
    obtain ⟨_, rfl⟩ | ⟨_, rfl⟩ := h
    · exact (frame_setStack_setPc s _ _ _).1
    · exact (keepsAllBut_refl _ s).raise _
  case call =>
    obtain ⟨_, rfl⟩ | ⟨_, rfl⟩ := h
    · exact (frame_setStack_setPc s _ _ _).1
    · exact (keepsAllBut_refl _ s).raise _
  case jp | jpV0 | seImm | sneImm | seReg | sneReg => exact (h : t = _) ▸ keepsAllBut_setPc s _
  case ldImm | addImm | ldReg | orReg | andReg | xorReg | ldVxDt => exact (h : t = _) ▸ keepsAllBut_writeV s _ _
  case addReg | sub | shr | subn | shl => exact (h : t = _) ▸ keepsAllBut_writeV_writeV s _ _ _ _
  case ldI | addI | ldF => exact (h : t = _) ▸ keepsAllBut_setI s _
  case rnd => exact (h : t = _) ▸ keepsAllBut_setRand_writeV s _ _ _ _
  case drw => exact h.keepsAllBut_of_display (.inr ⟨_, _, _, rfl⟩)
  case ldDtVx => exact (h : t = _) ▸ keepsAllBut_setDt s _
  case ldB | ldMemVx => exact Effect.Stored.keepsAllBut h
  case ldVxMem x =>
    obtain ⟨u, hu, hread, rfl | ⟨_, _, _, rfl⟩⟩ := h
    · exact keepsAllBut_setV_vBelow hu hread
    · exact (keepsAllBut_setV_vBelow hu hread).raise _

theorem stack_not_mem_writtenParts {i : Instr} (hret : i ≠ .ret) (hcall : ∀ nnn, i ≠ .call nnn) :
    Part.stack ∉ writtenParts i := by
  cases i
  case ret => exact absurd rfl hret
  case call nnn => exact absurd rfl (hcall nnn)
  all_goals simp [writtenParts, vBelow]

/-! ### Who writes what -/

/-- A part is kept when the instruction's rule does not name it. -/
theorem kept_or_written {p : Part} {i : Instr} {kept names : Prop} (hkept : p ∉ writtenParts i → kept)
    (hnames : p ∈ writtenParts i → names) : kept ∨ names :=
  (Decidable.em (p ∈ writtenParts i)).symm.imp hkept hnames

/-- Settles O53: each clause is the frame of a part, and the table `writtenParts` looked up for it. -/
theorem onlyNamedWriters : Obligations.OnlyNamedWriters := by
  intro i s t hexec
  obtain ⟨_, hi, hpc, hstack, hdt, hst, _, hmem, hrand, _⟩ := (exec_cases hexec).keepsAllBut
  refine ⟨kept_or_written hmem ?_, kept_or_written hi ?_, kept_or_written hdt ?_, kept_or_written hstack ?_,
    kept_or_written hrand ?_, hst, kept_or_written hpc ?_⟩
  all_goals cases i <;> simp [writtenParts, vBelow]

/-- Settles O54: VF is kept unless `writtenParts` names it. -/
theorem onlyFlagWritersOrDestinationWriteVF : Obligations.OnlyFlagWritersOrDestinationWriteVF := by
  intro i s t hexec hchanged
  obtain ⟨hv, -⟩ := (exec_cases hexec).keepsAllBut
  have hvf : Part.v 15 ∈ writtenParts i := by
    by_contra hnot
    exact hchanged (hv 15 hnot)
  revert hvf
  cases i
  case ldVxMem x =>
    intro hvf
    have hlt : 15 < x.val + 1 := (mem_vBelow 15 _).mp hvf
    have hx : x = 15 := Fin.ext (show x.val = 15 by omega)
    simp [hx]
  all_goals simp [writtenParts, eq_comm]

/-! ### Which fault -/

theorem DataFault.exists_address {s : State} {count : Nat} {f : Fault} (h : DataFault s count f) :
    ∃ a, 0xFFF < a ∧ f = .memoryOutOfRange a := by
  obtain ⟨k, _, hout, hf⟩ := h
  exact ⟨_, hout, hf⟩

/-- Settles O12: a latch that changed holds a fault that `MayRaise` lists for the instruction. -/
theorem instructionFaultKinds : Obligations.InstructionFaultKinds := by
  intro i s
  obtain ⟨t, hexec, heffect⟩ := exec_effect i s
  refine ⟨t, hexec, heffect.status_cases.imp_right ?_⟩
  rintro ⟨f, hraise, hstatus⟩
  rw [hstatus]
  cases i
  case ret => exact .inl ⟨rfl, congrArg Status.faulted hraise⟩
  case call nnn => exact .inr (.inl ⟨⟨nnn, rfl⟩, congrArg Status.faulted hraise⟩)
  case drw x y n =>
    obtain ⟨a, ha, rfl⟩ := DataFault.exists_address hraise
    exact .inr (.inr ⟨.inl ⟨x, y, n, rfl⟩, a, ha, rfl⟩)
  case ldB x =>
    obtain ⟨a, ha, rfl⟩ := DataFault.exists_address hraise
    exact .inr (.inr ⟨.inr ⟨x, .inl rfl⟩, a, ha, rfl⟩)
  case ldMemVx x =>
    obtain ⟨a, ha, rfl⟩ := DataFault.exists_address hraise
    exact .inr (.inr ⟨.inr ⟨x, .inr (.inl rfl)⟩, a, ha, rfl⟩)
  case ldVxMem x =>
    obtain ⟨a, ha, rfl⟩ := DataFault.exists_address hraise
    exact .inr (.inr ⟨.inr ⟨x, .inr (.inr rfl)⟩, a, ha, rfl⟩)
  all_goals cases hraise

end Sys2Proof.Machine
end

section
/-! PROOFS. The invariants (10_state.md R22, R24, R29): memory stays canonical, ST stays 0, and PC and the live return
addresses stay bounded. -/

namespace Sys2Proof.Machine

/-! ### Canonical memory and ST -/

theorem Effect.Stored.mem_wf {bs : List Byte} {s t : State} (h : Effect.Stored bs s t) (hwf : s.mem.wf = true) :
    t.mem.wf = true := by
  obtain ⟨hfits, rfl⟩ | ⟨k, hk, hin, _, rfl⟩ := h
  · exact Memory.writeBytes_wf hwf hfits
  · cases k with
    | zero => exact hwf
    | succ k =>
      refine Memory.writeBytes_wf hwf ?_
      have hlast := hin k k.lt_succ_self
      rw [List.length_take_of_le hk.le]
      omega

/-- An instruction keeps memory canonical, whether it raises or not. -/
theorem Effect.mem_wf {i : Instr} {s t : State} (h : Effect s t i) (hwf : s.mem.wf = true) : t.mem.wf = true := by
  cases i
  case ret | call => obtain ⟨_, rfl⟩ | ⟨_, rfl⟩ := h <;> exact hwf
  case drw => obtain ⟨u, ⟨_, _, rfl⟩, rfl | ⟨_, _, _, rfl⟩⟩ := h <;> exact hwf
  case ldB | ldMemVx => exact Effect.Stored.mem_wf h hwf
  case ldVxMem =>
    obtain ⟨u, hu, _, ht⟩ := h
    have humem : u.mem = s.mem := (congrArg State.mem hu).trans (State.setV_mem s u.v)
    obtain rfl | ⟨_, _, _, rfl⟩ := ht <;> exact humem ▸ hwf
  all_goals
    obtain rfl := h
    exact hwf

theorem Effect.storeInv {i : Instr} {s t : State} (h : Effect s t i) (hinv : StoreInv s) : StoreInv t := by
  obtain ⟨hwf, hst⟩ := hinv
  obtain ⟨-, -, -, -, -, hkept, -⟩ := h.keepsAllBut
  exact ⟨h.mem_wf hwf, hkept.trans hst⟩

theorem TransactEffect.storeInv {tr : Transaction} {s t : State} (h : TransactEffect s t tr) (hinv : StoreInv s) :
    StoreInv t := by
  cases tr with
  | load bytes =>
    obtain ⟨_, ⟨hlen, rfl⟩ | ⟨_, rfl⟩⟩ := h
    · have hfits : Config.programStart + bytes.length ≤ Config.memSize := by
        simp only [Config.maxProgramLen, Config.memSize, Config.programStart] at hlen ⊢
        omega
      exact ⟨Memory.writeBytes_wf hinv.1 hfits, hinv.2⟩
    · exact hinv
  | step =>
    obtain ⟨_, _, rfl⟩ | ⟨_, ⟨_, rfl⟩ | ⟨i, heffect⟩⟩ := h
    · exact hinv
    · exact hinv
    · exact heffect.storeInv hinv
  | execute w =>
    obtain ⟨_, rfl⟩ | ⟨i, _, heffect⟩ := h
    · exact hinv
    · exact heffect.storeInv hinv
  | tickDelay =>
    obtain rfl := h
    exact hinv

theorem storeInv_resetWith (rand : List Byte) : StoreInv (State.resetWith rand) := ⟨rfl, rfl⟩

/-- Settles O58: each transaction keeps the invariant, and reset has it. -/
theorem reachableStatesKeepStoreInv : Obligations.ReachableStatesKeepStoreInv := by
  have hkeeps : ∀ (tr : Transaction) (s t : State), StoreInv s → transact tr s = .next t → StoreInv t :=
    fun _ _ _ hinv h => (transact_cases h).2.storeInv hinv
  refine ⟨hkeeps, fun s hreach => ?_⟩
  induction hreach with
  | reset rand => exact storeInv_resetWith rand
  | transact tr _ h ih => exact hkeeps tr _ _ ih h

/-- Settles O56: `Step` is one of the transactions. -/
theorem stepKeepsStoreInv : Obligations.StepKeepsStoreInv := fun s t =>
  reachableStatesKeepStoreInv.1 .step s t

/-! ### PC and the return addresses -/

/-- No live return address exceeds 0x1000. -/
def ReturnsBounded (s : State) : Prop := ∀ k : Fin 16, k.val < s.sp.val → s.stack[k].toNat ≤ 0x1000

theorem ReturnsBounded.of_same_stack {s t : State} (h : ReturnsBounded s) (hsp : t.sp = s.sp)
    (hstack : t.stack = s.stack) : ReturnsBounded t := by
  unfold ReturnsBounded
  rw [hsp, hstack]
  exact h

theorem ReturnsBounded.pop {s : State} (h : ReturnsBounded s) (hpos : 0 < s.sp.val) (w : Word) :
    ReturnsBounded ((s.setStack s.stack ⟨s.sp.val - 1, by omega⟩).setPc w) :=
  fun k hk => h k (Nat.lt_of_lt_of_le hk (Nat.sub_le _ _))

theorem ReturnsBounded.push {s : State} (h : ReturnsBounded s) (hroom : s.sp.val < 16) (hpc : s.pc.toNat ≤ 0x1000)
    (w : Word) : ReturnsBounded
      ((s.setStack (s.stack.set s.sp.val s.pc) ⟨s.sp.val + 1, Nat.succ_lt_succ hroom⟩).setPc w) := by
  intro k hk
  change ((s.stack.set s.sp.val s.pc)[k.val]).toNat ≤ 0x1000
  rw [Vector.getElem_set]
  split
  · exact hpc
  · next hne => exact h k (Nat.lt_of_le_of_ne (Nat.le_of_lt_succ hk) (Ne.symm hne))

theorem toNat_absAddress_le (nnn : Addr12) : (absAddress nnn).toNat ≤ 0xFFF := by
  rw [toNat_absAddress]
  exact Nat.le_of_lt_succ nnn.isLt

theorem toNat_jumpV0Target_le (nnn : Addr12) (s : State) : (jumpV0Target nnn s).toNat ≤ 0x10FE := by
  have hnnn : nnn.toNat < 0x1000 := nnn.isLt
  have hv : (s.readV 0).toNat < 0x100 := (s.readV 0).isLt
  rw [toNat_jumpV0Target]
  omega

/-- The next PC of a skip. -/
theorem toNat_skip_le {c : Prop} [Decidable c] {pc : Word} (hpc : pc.toNat ≤ 0x1000) :
    (if c then pcPlus2 pc else pc).toNat ≤ 0x10FE := by
  split
  · rw [toNat_pcPlus2 (by omega)]
    omega
  · omega

/-- An instruction that begins with PC just past a word in memory keeps the bounds. -/
theorem Effect.pcInv {i : Instr} {s t : State} (h : Effect s t i) (hpc : s.pc.toNat ≤ 0x1000)
    (hret : ReturnsBounded s) : PcInv t := by
  obtain ⟨-, -, hkeptPc, hkeptStack, -⟩ := h.keepsAllBut
  cases i
  case ret =>
    obtain ⟨hpos, rfl⟩ | ⟨_, rfl⟩ := h
    · have hbelow : s.sp.val - 1 < s.sp.val := Nat.sub_lt hpos Nat.one_pos
      have htarget := hret ⟨s.sp.val - 1, Nat.lt_of_lt_of_le hbelow s.sp_le⟩ hbelow
      exact ⟨Nat.le_trans htarget (by decide), hret.pop hpos _⟩
    · exact ⟨Nat.le_trans hpc (by decide), hret⟩
  case call nnn =>
    obtain ⟨hroom, rfl⟩ | ⟨_, rfl⟩ := h
    · exact ⟨Nat.le_trans (toNat_absAddress_le nnn) (by decide), hret.push hroom hpc _⟩
    · exact ⟨Nat.le_trans hpc (by decide), hret⟩
  case jp nnn =>
    obtain rfl := h
    exact ⟨Nat.le_trans (toNat_absAddress_le nnn) (by decide), hret⟩
  case jpV0 nnn =>
    obtain rfl := h
    exact ⟨toNat_jumpV0Target_le nnn s, hret⟩
  case seImm | sneImm | seReg | sneReg =>
    obtain rfl := h
    exact ⟨toNat_skip_le hpc, hret⟩
  all_goals
    obtain ⟨hsp, hentries⟩ := hkeptStack (stack_not_mem_writtenParts nofun nofun)
    have hsame : t.pc = s.pc := hkeptPc (by simp [writtenParts, vBelow])
    exact ⟨hsame ▸ Nat.le_trans hpc (by decide), hret.of_same_stack hsp hentries⟩

/-- Settles O57: a step executes only when both bytes of the word exist, so PC is then at most 0x1000. -/
theorem stepKeepsPcInv : Obligations.StepKeepsPcInv := by
  intro s t ⟨hpc, hret⟩ h
  obtain ⟨_, hstep⟩ := transact_cases (tr := .step) h
  obtain ⟨_, _, rfl⟩ | ⟨hin, hafter⟩ := hstep
  · exact ⟨hpc, hret⟩
  · have hword : s.pc.toNat + 1 < 4096 := hin
    have hadvance : s.begun.advance.pc.toNat ≤ 0x1000 := by
      rw [State.advance_pc, State.begun_pc, toNat_pcPlus2 (by omega)]
      omega
    obtain ⟨_, rfl⟩ | ⟨i, heffect⟩ := hafter
    · exact ⟨Nat.le_trans hadvance (by decide), hret⟩
    · exact heffect.pcInv hadvance hret

/-- Settles O55: memory is the empty list and the stack is empty. -/
theorem invariantsHoldAtReset : Obligations.InvariantsHoldAtReset := fun rand =>
  ⟨storeInv_resetWith rand, (by decide : 0x200 ≤ 0x10FE), fun k hk => absurd hk (Nat.not_lt_zero k.val)⟩

end Sys2Proof.Machine
end

section
/-! PROOFS. Control transfer (41_control_flow.md): return and the jump plus V0. -/

namespace Sys2Proof.Machine

theorem encodedAs_ret : EncodedAs 0x00EE 0xFFFF .ret := ⟨BitVec.and_allOnes, decodeInvertsEncode .ret⟩

theorem exec_ret_of_pos {s : State} (h : 0 < s.sp.val) :
    exec .ret s = .next ((s.setStack s.stack ⟨s.sp.val - 1, by omega⟩).setPc s.stack[s.sp.val - 1]) := by
  simp only [exec, execRet, pop_ok h]

theorem exec_ret_of_empty {s : State} (h : s.sp.val = 0) : exec .ret s = .next (s.raise (.stackUnderflow 0)) := by
  simp only [exec, execRet, pop_empty h]

/-- Settles O14: the two cases of `pop`. -/
theorem returnPopsOrUnderflows : Obligations.ReturnPopsOrUnderflows :=
  ⟨encodedAs_ret, fun s =>
    ⟨fun hpos => ⟨_, exec_ret_of_pos hpos, rfl, rfl, rfl, frame_setStack_setPc s _ _ _⟩,
      fun hempty => ⟨_, exec_ret_of_empty hempty, rfl, (keepsAllBut_refl [] s).raise _⟩⟩⟩

/-- Settles O19: the target is the exact sum, which fits PC. -/
theorem jumpPlusV0Unmasked : Obligations.JumpPlusV0Unmasked := fun nnn s =>
  ⟨s.setPc (jumpV0Target nnn s), rfl, toNat_jumpV0Target nnn s, frame_setPc s _⟩

end Sys2Proof.Machine
end

section
/-! PROOFS. What no instruction observes: the sound timer (decision D15) and the dead stack entries (10_state.md R21). Both
are one argument: a change of what an instruction does not read passes through it. -/

namespace Sys2Proof.Machine

/-! ### A change of the stack, SP and ST passes through every instruction but `00EE` and `2nnn` -/

/-- The state with the stack entries, SP and ST changed. -/
def mapUnread (stack : CallStack → CallStack) (sp : StackCount → StackCount) (st : Byte → Byte) (s : State) : State :=
  { s with stack := stack s.stack, sp := sp s.sp, st := st s.st }

section
variable (p : CallStack → CallStack) (q : StackCount → StackCount) (c : Byte → Byte)

theorem storeBytes_mapUnread (policy : Config.FontWritePolicy) (bs : List Byte) (a : Nat) (s : State) :
    storeBytes policy bs a (mapUnread p q c s) = mapNext (mapUnread p q c) (storeBytes policy bs a s) := by
  induction bs generalizing a s with
  | nil => rfl
  | cons b bs ih =>
    by_cases hout : Config.memSize ≤ a
    · simp only [storeBytes, memWrite, hout, if_true]
      rfl
    · by_cases hfont : policy = .fault ∧ inFont a = true
      · simp only [storeBytes, memWrite, hout, hfont, if_false]
        rfl
      · simp only [storeBytes, memWrite, hout, hfont, if_false]
        exact ih (a + 1) (s.setMem (s.mem.write a b))

theorem loadRegs_mapUnread (count k : Nat) (s : State) :
    loadRegs count k (mapUnread p q c s) = mapNext (mapUnread p q c) (loadRegs count k s) := by
  induction count generalizing k s with
  | zero => rfl
  | succ count ih =>
    have hread : memRead (mapUnread p q c s) ((mapUnread p q c s).i.toNat + k) = memRead s (s.i.toNat + k) := rfl
    simp only [loadRegs, hread]
    cases memRead s (s.i.toNat + k) with
    | error f => rfl
    | ok b => exact ih (k + 1) (s.writeV (Fin.ofNat 16 k) b)

theorem drawCols_mapUnread (lastX x0 py : Nat) (sprite : Byte) (k col : Nat) (s : State) :
    drawCols lastX x0 py sprite k col (mapUnread p q c s) =
      mapUnread p q c (drawCols lastX x0 py sprite k col s) := by
  induction k generalizing col s with
  | zero => rfl
  | succ k ih =>
    rw [drawCols, drawCols]
    split
    · rfl
    · have hfb : (mapUnread p q c s).fb = s.fb := rfl
      simp only [hfb]
      split
      · exact ih (col + 1) ((s.writeV regVF 1).setFb _)
      · exact ih (col + 1) (s.setFb (s.fb.setPix (x0 + col) py _))

theorem drawRows_mapUnread (lastX lastY x0 y0 k row : Nat) (s : State) :
    drawRows lastX lastY x0 y0 k row (mapUnread p q c s) =
      mapNext (mapUnread p q c) (drawRows lastX lastY x0 y0 k row s) := by
  induction k generalizing row s with
  | zero => rfl
  | succ k ih =>
    have hread : memRead (mapUnread p q c s) ((mapUnread p q c s).i.toNat + row) = memRead s (s.i.toNat + row) := rfl
    rw [drawRows, drawRows, hread]
    split
    · rfl
    · cases memRead s (s.i.toNat + row) with
      | error f => rfl
      | ok sprite =>
        simp only [drawCols_mapUnread]
        exact ih (row + 1) _

theorem drawRand_mapUnread (s : State) :
    drawRand (mapUnread p q c s) = ((drawRand s).1, mapUnread p q c (drawRand s).2) := by
  have hqueue : (mapUnread p q c s).randQueue = s.randQueue := rfl
  unfold drawRand
  rw [hqueue]
  cases s.randQueue <;> rfl

theorem skipIf_mapUnread (skip : Bool) (s : State) :
    skipIf skip (mapUnread p q c s) = mapUnread p q c (skipIf skip s) := by
  cases skip <;> rfl

theorem exec_mapUnread {i : Instr} (hret : i ≠ .ret) (hcall : ∀ nnn, i ≠ .call nnn) (s : State) :
    exec i (mapUnread p q c s) = mapNext (mapUnread p q c) (exec i s) := by
  cases i
  case ret => exact absurd rfl hret
  case call nnn => exact absurd rfl (hcall nnn)
  case seImm | sneImm | seReg | sneReg => exact congrArg Host.Outcome.next (skipIf_mapUnread p q c _ s)
  case rnd x kk =>
    simp only [exec, execRnd, drawRand_mapUnread]
    rfl
  case drw x y n => exact drawRows_mapUnread p q c _ _ _ _ _ _ (s.writeV regVF 0)
  case ldB x => exact storeBytes_mapUnread p q c _ _ _ s
  case ldMemVx x => exact storeBytes_mapUnread p q c _ _ _ s
  case ldVxMem x => exact loadRegs_mapUnread p q c _ _ s
  all_goals rfl

end

/-! ### A step sees memory, PC and the latch, and leaves the rest to the instruction -/

/-- Two states that agree on what a step itself reads step to related states when the fault entries and every instruction
lead to related states; once faulted they stop alike. -/
theorem step_related {R : State → State → Prop} {s s' : State} (hpc : s'.pc = s.pc) (hmem : s'.mem = s.mem)
    (hstatus : s'.status = s.status) (hfetch : ∀ f, R (s.begun.raise f) (s'.begun.raise f))
    (hdecode : ∀ f, R (s.begun.advance.raise f) (s'.begun.advance.raise f))
    (hexec : ∀ i, ∃ t t', exec i s.begun.advance = .next t ∧ exec i s'.begun.advance = .next t' ∧ R t t') :
    (∃ t t', step s = .next t ∧ step s' = .next t' ∧ R t t') ∨ ∃ f, step s = .fault f ∧ step s' = .fault f := by
  cases hs : s.status with
  | faulted f =>
    exact .inr ⟨f, whenRunning_of_faulted _ hs, whenRunning_of_faulted _ (hstatus.trans hs)⟩
  | running =>
    have hsame : fetchWord s' = fetchWord s := by simp only [fetchWord, memRead, hpc, hmem]
    left
    cases hw : fetchWord s with
    | error f =>
      exact ⟨_, _, step_of_fetch_error hs hw, step_of_fetch_error (hstatus.trans hs) (hsame.trans hw), hfetch f⟩
    | ok w =>
      rw [step_of_fetch_ok hs hw, step_of_fetch_ok (hstatus.trans hs) (hsame.trans hw)]
      cases hd : decode w with
      | none => exact ⟨_, _, decodeExec_of_none hd _, decodeExec_of_none hd _, hdecode _⟩
      | some i =>
        rw [decodeExec_of_some hd, decodeExec_of_some hd]
        exact hexec i

/-! ### The sound timer -/

theorem exec_withSt (b : Byte) (i : Instr) (s : State) : exec i (withSt b s) = mapNext (withSt b) (exec i s) := by
  have hother : i ≠ .ret → (∀ nnn, i ≠ .call nnn) → exec i (withSt b s) = mapNext (withSt b) (exec i s) :=
    fun hret hcall => exec_mapUnread id id (fun _ => b) hret hcall s
  cases i
  case ret =>
    rcases Nat.eq_zero_or_pos s.sp.val with hempty | hpos
    · rw [exec_ret_of_empty hempty, exec_ret_of_empty (s := withSt b s) hempty]
      rfl
    · rw [exec_ret_of_pos hpos, exec_ret_of_pos (s := withSt b s) hpos]
      rfl
  case call nnn =>
    rcases s.sp_le.eq_or_lt with hfull | hroom
    · rw [exec_call_of_full nnn hfull, exec_call_of_full nnn (s := withSt b s) hfull]
      rfl
    · rw [exec_call_of_lt nnn hroom, exec_call_of_lt nnn (s := withSt b s) hroom]
      rfl
  all_goals exact hother nofun nofun

/-- Settles O59: the relation of `step_related` is "has another sound timer". -/
theorem soundTimerUnobservable : Obligations.SoundTimerUnobservable := by
  intro b s
  have hexec : ∀ i, ∃ t t', exec i s.begun.advance = .next t ∧ exec i (withSt b s).begun.advance = .next t' ∧
      t' = withSt b t := by
    intro i
    obtain ⟨t, ht, _⟩ := exec_effect i s.begun.advance
    have ht' := exec_withSt b i s.begun.advance
    rw [ht] at ht'
    exact ⟨t, _, ht, ht', rfl⟩
  obtain ⟨t, _, ht, ht', rfl⟩ | ⟨f, hf, hf'⟩ := step_related (R := fun t t' => t' = withSt b t) (s := s)
    (s' := withSt b s) rfl rfl rfl (fun _ => rfl) (fun _ => rfl) hexec
  · rw [ht, ht', mapNext]
  · rw [hf, hf', mapNext]

/-! ### Dead stack entries -/

theorem sameButDeadStack_setStack {s : State} {stack : CallStack}
    (hlive : ∀ k : Fin 16, k.val < s.sp.val → stack[k] = s.stack[k]) :
    SameButDeadStack s (s.setStack stack s.sp) := ⟨rfl, hlive⟩

/-- Every instruction takes states that differ in dead entries to such states. -/
theorem exec_sameButDeadStack {s : State} {stack : CallStack}
    (hlive : ∀ k : Fin 16, k.val < s.sp.val → stack[k] = s.stack[k]) (i : Instr) :
    ∃ t t', exec i s = .next t ∧ exec i (s.setStack stack s.sp) = .next t' ∧ SameButDeadStack t t' := by
  have hother : i ≠ .ret → (∀ nnn, i ≠ .call nnn) → ∃ t t', exec i s = .next t ∧
      exec i (s.setStack stack s.sp) = .next t' ∧ SameButDeadStack t t' := by
    intro hret hcall
    obtain ⟨t, ht, heffect⟩ := exec_effect i s
    obtain ⟨-, -, -, hkept, -⟩ := heffect.keepsAllBut
    obtain ⟨hsp, hentries⟩ := hkept (stack_not_mem_writtenParts hret hcall)
    have ht' := exec_mapUnread (fun _ => stack) id id hret hcall s
    rw [ht] at ht'
    refine ⟨t, t.setStack stack t.sp, ht, ht', sameButDeadStack_setStack ?_⟩
    rw [hsp, hentries]
    exact hlive
  cases i
  case ret =>
    rcases Nat.eq_zero_or_pos s.sp.val with hempty | hpos
    · exact ⟨_, _, exec_ret_of_empty hempty, exec_ret_of_empty (s := s.setStack stack s.sp) hempty, rfl, hlive⟩
    · have hbelow : s.sp.val - 1 < s.sp.val := Nat.sub_lt hpos Nat.one_pos
      have htop : stack[s.sp.val - 1] = s.stack[s.sp.val - 1] :=
        hlive ⟨s.sp.val - 1, Nat.lt_of_lt_of_le hbelow s.sp_le⟩ hbelow
      refine ⟨_, _, exec_ret_of_pos hpos, exec_ret_of_pos (s := s.setStack stack s.sp) hpos, ?_, ?_⟩
      · simp only [State.setStack_stack, State.setStack_sp, htop]
        rfl
      · exact fun k hk => hlive k (Nat.lt_of_lt_of_le hk (Nat.sub_le _ _))
  case call nnn =>
    rcases s.sp_le.eq_or_lt with hfull | hroom
    · exact ⟨_, _, exec_call_of_full nnn hfull, exec_call_of_full nnn (s := s.setStack stack s.sp) hfull, rfl, hlive⟩
    · refine ⟨_, _, exec_call_of_lt nnn hroom, exec_call_of_lt nnn (s := s.setStack stack s.sp) hroom, rfl, ?_⟩
      intro k hk
      change (stack.set s.sp.val s.pc)[k.val] = (s.stack.set s.sp.val s.pc)[k.val]
      rw [Vector.getElem_set, Vector.getElem_set]
      split
      · rfl
      · next hne => exact hlive k (Nat.lt_of_le_of_ne (Nat.le_of_lt_succ hk) (Ne.symm hne))
  all_goals exact hother nofun nofun

/-- Settles O60: the relation of `step_related` is `SameButDeadStack`. -/
theorem deadStackEntriesUnobservable : Obligations.DeadStackEntriesUnobservable := by
  rintro s s' ⟨hs', hlive⟩
  generalize s'.stack = stack at hs' hlive
  subst hs'
  exact step_related rfl rfl rfl (fun _ => ⟨rfl, hlive⟩) (fun _ => ⟨rfl, hlive⟩)
    (exec_sameButDeadStack (s := s.begun.advance) hlive)

end Sys2Proof.Machine
end

section
/-! PROOFS. Register moves, logic, arithmetic, shifts and random bytes (42_register_alu.md). -/

namespace Sys2Proof.Machine

/-! ### `8xy0` .. `8xy3` -/

/-- An instruction of format XYS under a selector in the last digit meets the row with that selector. -/
theorem encodedAs_of_encodeXYS (op n : Nibble) {i : Instr} {x y : RegIdx} (hencode : encode i = encodeXYS op x y n) :
    EncodedAs (ofNibbles op 0 0 n) 0xF00F i := by
  refine ⟨?_, decodeInvertsEncode i⟩
  rw [hencode, encodeXYS, show (0xF00F : Word) = ofNibbles 0xF 0 0 0xF from rfl, ofNibbles_and]
  simp

/-- Settles O21: one register write each, whose bits are those of the operation. -/
theorem moveAndLogic : Obligations.MoveAndLogic := by
  intro x y s
  refine ⟨encodedAs_of_encodeXYS 0x8 0x0 rfl, encodedAs_of_encodeXYS 0x8 0x1 rfl, encodedAs_of_encodeXYS 0x8 0x2 rfl,
    encodedAs_of_encodeXYS 0x8 0x3 rfl, exec_writeV rfl, ?_, ?_, ?_⟩
  · obtain ⟨t, hexec, hread, hframe⟩ := exec_writeV (show exec (.orReg x y) s = .next (s.writeV x _) from rfl)
    exact ⟨t, hexec, hframe, fun k => by rw [hread, BitVec.getLsbD_or]⟩
  · obtain ⟨t, hexec, hread, hframe⟩ := exec_writeV (show exec (.andReg x y) s = .next (s.writeV x _) from rfl)
    exact ⟨t, hexec, hframe, fun k => by rw [hread, BitVec.getLsbD_and]⟩
  · obtain ⟨t, hexec, hread, hframe⟩ := exec_writeV (show exec (.xorReg x y) s = .next (s.writeV x _) from rfl)
    exact ⟨t, hexec, hframe, fun k => by rw [hread, BitVec.getLsbD_xor]⟩

/-! ### Flag-writing instructions -/

/-- What R88 and R89 say of an instruction that writes a result and a flag, in this hardware's order of the two. -/
theorem exec_writeFlagged {i : Instr} {s : State} {res : Byte → Byte → Byte} {fl : Byte → Byte → Bool} {x y : RegIdx}
    (hexec : exec i s = .next (writeFlagged Config.vfWriteOrder res fl x y s)) :
    ∃ t, exec i s = .next t ∧ (x ≠ 15 → t.readV x = res (s.readV x) (s.readV y)) ∧
      t.readV 15 = flagByte (fl (s.readV x) (s.readV y)) ∧ Frame [.v x, .v 15] s t :=
  ⟨_, hexec, readV_writeFlagged_x res fl y s, readV_writeFlagged_vf res fl x y s,
    keepsAllBut_writeV_writeV s x 15 _ _, rfl⟩

theorem flagByte_decide (c : Prop) [Decidable c] : flagByte (decide c) = if c then 1 else 0 := by
  simp only [flagByte, decide_eq_true_eq]

/-- Settles O22: the byte sum is the sum modulo 256, and the flag compares the exact sum. -/
theorem addSetsCarry : Obligations.AddSetsCarry := by
  intro x y s
  obtain ⟨t, hexec, hres, hflag, hframe⟩ := exec_writeFlagged (i := .addReg x y) (s := s) rfl
  refine ⟨t, hexec, fun hx => ?_, ?_, hframe⟩
  · rw [hres hx, BitVec.toNat_add]
  · rw [hflag, carryFlag, flagByte_decide]

/-- A byte difference as a number. -/
theorem toNat_byte_sub (a b : Byte) : (a - b).toNat = (256 + a.toNat - b.toNat) % 256 := by
  have hb : b.toNat < 256 := b.isLt
  rw [BitVec.toNat_sub]
  omega

/-- Settles O23: both are a byte difference, with the operands exchanged in the second. -/
theorem subtractSetsNotBorrow : Obligations.SubtractSetsNotBorrow := by
  intro x y s
  constructor
  · obtain ⟨t, hexec, hres, hflag, hframe⟩ := exec_writeFlagged (i := .sub x y) (s := s) rfl
    refine ⟨t, hexec, fun hx => ?_, ?_, hframe⟩
    · rw [hres hx, toNat_byte_sub]
    · rw [hflag, notBorrowFlag, flagByte_decide]
  · obtain ⟨t, hexec, hres, hflag, hframe⟩ := exec_writeFlagged (i := .subn x y) (s := s) rfl
    refine ⟨t, hexec, fun hx => ?_, ?_, hframe⟩
    · rw [hres hx, toNat_byte_sub]
    · rw [hflag, notBorrowFlag, flagByte_decide]

theorem toNat_flagByte (f : Bool) : (flagByte f).toNat = f.toNat := by cases f <;> rfl

theorem toNat_flagByte_getLsbD (b : Byte) (k : Nat) : (flagByte (b.getLsbD k)).toNat = b.toNat / 2 ^ k % 2 := by
  rw [toNat_flagByte, BitVec.getLsbD, Nat.toNat_testBit]

/-- Settles O24: a shift by one is a halving or a doubling, and the flag is the bit that it drops. -/
theorem shiftSetsBitShiftedOut : Obligations.ShiftSetsBitShiftedOut := by
  intro x y s
  constructor
  · obtain ⟨t, hexec, hres, hflag, hframe⟩ := exec_writeFlagged (i := .shr x y) (s := s) rfl
    refine ⟨t, hexec, fun hx => ?_, ?_, hframe⟩
    · rw [hres hx, BitVec.toNat_ushiftRight, Nat.shiftRight_eq_div_pow, Nat.pow_one]
    · rw [hflag, shiftOutRight, toNat_flagByte_getLsbD, Nat.pow_zero, Nat.div_one]
  · obtain ⟨t, hexec, hres, hflag, hframe⟩ := exec_writeFlagged (i := .shl x y) (s := s) rfl
    refine ⟨t, hexec, fun hx => ?_, ?_, hframe⟩
    · rw [hres hx, BitVec.toNat_shiftLeft, Nat.shiftLeft_eq, Nat.pow_one, Nat.mul_comm]
    · have hlt : (s.readV x).toNat < 256 := (s.readV x).isLt
      rw [hflag, shiftOutLeft, toNat_flagByte_getLsbD]
      omega

/-- Settles O25: neither meaning mentions y. -/
theorem shiftIgnoresY : Obligations.ShiftIgnoresY := fun _ _ _ _ => ⟨rfl, rfl⟩

theorem State.writeV_comm (s : State) {x y : RegIdx} (a b : Byte) (h : x ≠ y) :
    (s.writeV x a).writeV y b = (s.writeV y b).writeV x a := by
  have hv : (s.v.set x a).set y b = (s.v.set y b).set x a := Vector.set_comm a b fun e => h (Fin.ext e)
  exact congrArg s.setV hv

/-- Away from VF every order ends as the one that writes Vx first. -/
theorem writeFlagged_eq_flagLast (o : Config.VFWriteOrder) (res : Byte → Byte → Byte) (fl : Byte → Byte → Bool)
    {x y : RegIdx} (s : State) (hx : x ≠ 15) (hy : y ≠ 15) :
    writeFlagged o res fl x y s = writeFlagged .flagLast res fl x y s := by
  cases o with
  | flagLast => rfl
  | resultLast => exact (State.writeV_comm s _ _ hx).symm
  | literal =>
    simp only [writeFlagged, State.readV_writeV_ne _ _ hx, State.readV_writeV_ne _ _ hy]
    exact (State.writeV_comm s _ _ hx).symm

/-- Settles O26: both orders end as the same one. -/
theorem flagOrderMattersOnlyForVF : Obligations.FlagOrderMattersOnlyForVF := by
  intro o o' res fl x y s hx hy
  rw [writeFlagged_eq_flagLast o res fl s hx hy, writeFlagged_eq_flagLast o' res fl s hx hy]

/-! ### `Cxkk` -/

/-- One draw, whatever kk is. -/
theorem exec_rnd (x : RegIdx) (kk : Byte) (s : State) :
    ∃ t, exec (.rnd x kk) s = .next t ∧ t.readV x = (drawRand s).1 &&& kk ∧ t.randQueue = s.randQueue.tail ∧
      t.randDrawn = s.randDrawn + 1 ∧ Frame [.v x, .rand] s t := by
  have hexec : exec (.rnd x kk) s =
      .next ((s.setRand s.randQueue.tail (s.randDrawn + 1)).writeV x ((drawRand s).1 &&& kk)) := by
    rw [← drawRand_frame]
    rfl
  exact ⟨_, hexec, State.readV_writeV_self _ _ _, rfl, rfl, keepsAllBut_setRand_writeV s _ _ x _, rfl⟩

/-- Settles O27: a queued answer is the byte drawn; without one the byte is the free value. -/
theorem randomByteMasked : Obligations.RandomByteMasked := by
  intro x kk s
  obtain ⟨t, hexec, hread, hqueue, hdrawn, hframe⟩ := exec_rnd x kk s
  refine ⟨fun r rest hq => ?_, fun hq => ?_⟩
  · rw [drawRand_cons hq] at hread
    rw [hq, List.tail_cons] at hqueue
    exact ⟨t, hexec, hread, hqueue, hdrawn, hframe⟩
  · rw [hq, List.tail_nil] at hqueue
    exact ⟨t, _, hexec, hread, hqueue, hdrawn, hframe⟩

end Sys2Proof.Machine
end

section
/-! PROOFS. Memory (20_memory.md): the canonical form, checked writes under both font policies, the host's placed word and
`Load`; and the state after `Reset` (70_reset_and_hazards.md R132). -/

namespace Sys2Proof.Machine

/-! ### The canonical form -/

/-- An entry of a canonical memory is what its address reads as, and so not what it read as at reset. -/
theorem Memory.read_head_ne {lo k : Nat} {b : Byte} {m : Memory} (h : Memory.wfFrom lo ((k, b) :: m) = true) :
    Memory.read ((k, b) :: m) k ≠ resetByte k := by
  rw [Memory.read, if_pos rfl]
  exact (Memory.wfFrom_cons.mp h).2.2.1

/-- A memory that reads alike has no entry before the other's first possible address. -/
theorem Memory.not_lt_of_read_eq {lo lo' k : Nat} {b : Byte} {m m' : Memory}
    (hm : Memory.wfFrom lo ((k, b) :: m) = true) (hm' : Memory.wfFrom lo' m' = true)
    (hread : Memory.read ((k, b) :: m) k = m'.read k) : ¬ k < lo' :=
  fun hlt => Memory.read_head_ne hm (hread.trans (Memory.read_of_lt hm' hlt))

theorem Memory.eq_nil_of_read_eq {lo : Nat} {m : Memory} (hm : Memory.wfFrom lo m = true)
    (hread : ∀ a, a < Config.memSize → m.read a = resetByte a) : m = [] := by
  cases m with
  | nil => rfl
  | cons c m => exact absurd (hread c.1 (Memory.wfFrom_cons.mp hm).2.1) (Memory.read_head_ne hm)

/-- Canonical memories that read alike are the same list. -/
theorem Memory.eq_of_read_eq {lo lo' : Nat} {m m' : Memory} (hm : Memory.wfFrom lo m = true)
    (hm' : Memory.wfFrom lo' m' = true) (hread : ∀ a, a < Config.memSize → m.read a = m'.read a) : m = m' := by
  induction m generalizing lo lo' m' with
  | nil => exact (Memory.eq_nil_of_read_eq hm' fun a ha => (hread a ha).symm).symm
  | cons c m ih =>
    cases m' with
    | nil => exact Memory.eq_nil_of_read_eq hm hread
    | cons c' m' =>
      obtain ⟨k, b⟩ := c
      obtain ⟨k', b'⟩ := c'
      obtain ⟨_, hk, hb, htail⟩ := Memory.wfFrom_cons.mp hm
      obtain ⟨_, hk', hb', htail'⟩ := Memory.wfFrom_cons.mp hm'
      have hge := Memory.not_lt_of_read_eq hm (Memory.wfFrom_cons.mpr ⟨le_refl k', hk', hb', htail'⟩) (hread k hk)
      have hle := Memory.not_lt_of_read_eq hm' (Memory.wfFrom_cons.mpr ⟨le_refl k, hk, hb, htail⟩) (hread k' hk').symm
      obtain rfl : k = k' := by omega
      have hbyte : b = b' := by simpa [Memory.read] using hread k hk
      have htails : m = m' := by
        refine ih htail htail' fun a ha => ?_
        by_cases hak : k = a
        · have hlt : a < k + 1 := by omega
          rw [Memory.read_of_lt htail hlt, Memory.read_of_lt htail' hlt]
        · simpa [Memory.read, hak] using hread a ha
      rw [hbyte, htails]

theorem frame_setMem (s : State) (m : Memory) : Frame [.mem] s (s.setMem m) := ⟨keepsAllBut_setMem s m, rfl⟩

/-- Settles O45: the two lists are compared from their lowest possible address. -/
theorem canonicalMemoryUnique : Obligations.CanonicalMemoryUnique := fun _ _ hm hm' hread =>
  Memory.eq_of_read_eq hm hm' fun a ha => hread a (Nat.le_of_lt_succ ha)

/-! ### Checked writes -/

/-- Settles O44: the write goes through under this hardware's policy, and `Memory.read` sees that byte only. -/
theorem memoryReadAfterWrite : Obligations.MemoryReadAfterWrite := by
  intro s a b hwf ha
  have hin : a < Config.memSize := Nat.lt_succ_of_le ha
  refine ⟨_, memWrite_store_ok b hin, Memory.write_wf hwf b hin, fun a' ha' => ?_, frame_setMem s _⟩
  have hin' : a' < Config.memSize := Nat.lt_succ_of_le ha'
  rw [memRead_ok hin', memRead_ok hin', State.setMem_mem]
  split
  · next heq => rw [heq, Memory.read_write_self hwf]
  · next hne => rw [Memory.read_write_ne _ _ hne]

theorem memWrite_fault_of_inFont {s : State} {a : Nat} (b : Byte) (hlo : 0x050 ≤ a) (hhi : a ≤ 0x09F) :
    memWrite .fault s a b = .error (.fontWrite a) := by
  have hin : ¬ Config.memSize ≤ a := Nat.not_le.mpr (Nat.lt_of_le_of_lt hhi (by decide))
  rw [memWrite, if_neg hin, if_pos ⟨rfl, (inFont_iff a).mpr ⟨hlo, hhi⟩⟩]

theorem memWrite_fault_of_not_inFont {s : State} {a : Nat} (b : Byte) (h : a < 0x050 ∨ 0x09F < a) :
    memWrite .fault s a b = memWrite .store s a b := by
  have hfont : ¬ inFont a = true := fun hf => by
    have := (inFont_iff a).mp hf
    omega
  rw [memWrite, memWrite]
  simp [hfont]

/-- Settles O46: each clause is one branch of `memWrite`. -/
theorem fontWritePolicies : Obligations.FontWritePolicies := fun _ _ b =>
  ⟨fun ha => memWrite_store_ok b (Nat.lt_succ_of_le ha), memWrite_fault_of_inFont b, memWrite_fault_of_not_inFont b⟩

/-! ### A run of bytes written at once -/

theorem keepsMemoryOutside_writeBytes (s : State) (a : Nat) (bs : List Byte) :
    KeepsMemoryOutside a bs.length s (s.setMem (s.mem.writeBytes a bs)) :=
  fun a' h => Memory.read_writeBytes_outside bs s.mem a a' h

theorem fetchWord_setMem {s : State} (m : Memory) (hpc : s.pc.toNat + 1 < 4096) :
    fetchWord (s.setMem m) = .ok (wordOfBytes (m.read s.pc.toNat) (m.read (s.pc.toNat + 1))) :=
  fetchWord_ok (s := s.setMem m) hpc

/-- Settles O10: the two bytes placed at PC are the two the fetch reads. -/
theorem placedWordIsFetched : Obligations.PlacedWordIsFetched := by
  intro s w hwf hpc
  have hplaced : s.withFetchWord 16 w = s.setMem (s.mem.writeBytes s.pc.toNat (bytesOfWord (BitVec.ofNat 16 w))) := by
    have hword : tableWord 16 w = BitVec.ofNat 16 w := BitVec.eq_of_toNat_eq (by simp [tableWord])
    rw [State.withFetchWord, State.placeWord, if_pos hpc, hword]
  have hfits : s.pc.toNat + (bytesOfWord (BitVec.ofNat 16 w)).length ≤ Config.memSize := hpc
  have hhi : (s.mem.writeBytes s.pc.toNat _).read s.pc.toNat = hiByte (BitVec.ofNat 16 w) :=
    Memory.read_writeBytes hwf hfits 0 Nat.two_pos
  have hlo : (s.mem.writeBytes s.pc.toNat _).read (s.pc.toNat + 1) = loByte (BitVec.ofNat 16 w) :=
    Memory.read_writeBytes hwf hfits 1 Nat.one_lt_two
  rw [hplaced, fetchWord_setMem _ hpc, hhi, hlo, wordOfBytes_hi_lo]

/-! ### `Load` -/

theorem load_of_closed {s : State} (bytes : List Byte) (hrun : s.isRunning) (h : s.loadOpen = false) :
    load bytes s = .refused .loadClosed := by
  simp [load, whenRunning_of_running _ hrun, loadImage, h]

theorem load_of_fits {s : State} {bytes : List Byte} (hrun : s.isRunning) (h : s.loadOpen = true)
    (hlen : bytes.length ≤ 0xE00) :
    load bytes s = .next ((s.setMem (s.mem.writeBytes 0x200 bytes)).setLoadOpen false) := by
  have himage : imageWellFormed bytes = true := decide_eq_true hlen
  simp only [load, whenRunning_of_running _ hrun, loadImage, h, himage, if_true]

theorem load_of_too_long {s : State} {bytes : List Byte} (hrun : s.isRunning) (h : s.loadOpen = true)
    (hlen : 0xE00 < bytes.length) : load bytes s = .next (s.raise (.loadRejected bytes.length)) := by
  have himage : imageWellFormed bytes = false := decide_eq_false (Nat.not_le.mpr hlen)
  simp only [load, whenRunning_of_running _ hrun, loadImage, h, himage, if_true, Bool.false_eq_true, if_false]

/-- Settles O49: an image that fits ends at 0x1000 at the latest, so every byte of it reads back. -/
theorem loadPlacesImageOrRejects : Obligations.LoadPlacesImageOrRejects := by
  intro bytes s hrun hopen hwf
  refine ⟨fun hlen => ?_, load_of_too_long hrun hopen⟩
  have hfits : 0x200 + bytes.length ≤ Config.memSize := Nat.add_le_add_left hlen 0x200
  exact ⟨_, load_of_fits hrun hopen hlen, Memory.read_writeBytes hwf hfits, keepsMemoryOutside_writeBytes s _ bytes,
    Memory.writeBytes_wf hwf hfits, rfl⟩

/-- No further `Load` can be accepted: the window is closed, or the block has faulted. -/
def LoadShut (s : State) : Prop := s.loadOpen = false ∨ ¬ s.isRunning

theorem Effect.loadOpen_eq {i : Instr} {s t : State} (h : Effect s t i) : t.loadOpen = s.loadOpen := by
  obtain ⟨-, -, -, -, -, -, -, -, -, hopen⟩ := h.keepsAllBut
  exact hopen

/-- `Step` and `Execute` close the window, and `TickDelay` leaves it. -/
theorem TransactEffect.loadOpen_cases {tr : Transaction} {s t : State} (h : TransactEffect s t tr) :
    (∃ bytes, tr = .load bytes) ∨ t.loadOpen = false ∨ (tr = .tickDelay ∧ t.loadOpen = s.loadOpen) := by
  cases tr with
  | load bytes => exact .inl ⟨bytes, rfl⟩
  | step =>
    obtain ⟨_, _, rfl⟩ | ⟨_, ⟨_, rfl⟩ | ⟨i, heffect⟩⟩ := h
    · exact .inr (.inl rfl)
    · exact .inr (.inl rfl)
    · exact .inr (.inl heffect.loadOpen_eq)
  | execute w =>
    obtain ⟨_, rfl⟩ | ⟨i, _, heffect⟩ := h
    · exact .inr (.inl rfl)
    · exact .inr (.inl heffect.loadOpen_eq)
  | tickDelay =>
    obtain rfl := h
    exact .inr (.inr ⟨rfl, rfl⟩)

/-- No transaction opens the window. -/
theorem loadOpen_of_transact {tr : Transaction} {s t : State} (h : transact tr s = .next t)
    (hclosed : s.loadOpen = false) : t.loadOpen = false := by
  obtain ⟨_, heffect⟩ := transact_cases h
  obtain ⟨bytes, rfl⟩ | hshut | ⟨_, hkept⟩ := heffect.loadOpen_cases
  · exact absurd (hclosed.symm.trans heffect.1) Bool.false_ne_true
  · exact hshut
  · exact hkept.trans hclosed

theorem loadShut_of_transact {tr : Transaction} {s t : State} (htr : tr ≠ .tickDelay) (h : transact tr s = .next t) :
    LoadShut t := by
  obtain ⟨_, heffect⟩ := transact_cases h
  obtain ⟨bytes, rfl⟩ | hshut | ⟨htick, _⟩ := heffect.loadOpen_cases
  · obtain ⟨_, ⟨_, rfl⟩ | ⟨_, rfl⟩⟩ := heffect
    · exact .inl rfl
    · exact .inr nofun
  · exact .inl hshut
  · exact absurd htick htr

theorem LoadShut.runSchedule {schedule : List Transaction} {s t : State} (hshut : LoadShut s)
    (h : runSchedule schedule s = .next t) : LoadShut t := by
  induction schedule generalizing s with
  | nil =>
    cases h
    exact hshut
  | cons tr rest ih =>
    cases htr : transact tr s with
    | next s' =>
      simp only [Machine.runSchedule, htr] at h
      exact ih (.inl (loadOpen_of_transact htr (hshut.resolve_right (not_not_intro (transact_cases htr).1)))) h
    | fault f => simp only [Machine.runSchedule, htr] at h; cases h
    | refused r => simp only [Machine.runSchedule, htr] at h; cases h

/-- Settles O50: `LoadShut` holds after the transaction named and is kept by every schedule. -/
theorem loadAcceptedOnlyOnceAndFirst : Obligations.LoadAcceptedOnlyOnceAndFirst := by
  refine ⟨fun _ bytes => load_of_closed bytes, fun _ _ _ => loadOpen_of_transact, ?_⟩
  intro tr after s t u bytes htr h hafter hrun
  have hshut : LoadShut u := (loadShut_of_transact htr h).runSchedule hafter
  exact load_of_closed bytes hrun (hshut.resolve_right (not_not_intro hrun))

/-! ### `TickDelay` -/

theorem toNat_tickByte (dt : Byte) : (tickByte dt).toNat = dt.toNat - 1 := by
  have hlt : dt.toNat < 256 := dt.isLt
  unfold tickByte
  split
  · next hpos => exact BitVec.toNat_sub_of_le hpos
  · omega

/-- Settles O51: `TickDelay` writes DT and nothing else. -/
theorem tickCountsDownToZero : Obligations.TickCountsDownToZero := fun s hrun =>
  ⟨s.setDt (tickByte s.dt), whenRunning_of_running _ hrun, toNat_tickByte s.dt, frame_setDt s _⟩

/-! ### `Reset` and the read ports -/

theorem resetByte_eq (a : Nat) :
    resetByte a = if 0x050 ≤ a ∧ a ≤ 0x09F then Config.fontData.getD (a - 0x050) 0 else 0 := by
  simp only [resetByte, inFont_iff]

/-- Settles O47: the fields are those of `State.resetWith`, the framebuffer is the cleared one, and the empty memory reads
as the font and zeros. -/
theorem resetValues : Obligations.ResetValues := fun rand =>
  ⟨_, rfl, rfl, State.readV_resetWith rand, rfl, rfl, rfl, rfl, fun px py _ _ => Framebuffer.pix_clear px py, rfl, rfl, rfl,
    fun a _ => resetByte_eq a⟩

theorem liveEntry_eq (s : State) (k : Fin 16) :
    liveEntry s k.val = if k.val < s.sp.val then some s.stack[k] else none := by
  simp [liveEntry]

theorem liveEntry_of_ge (s : State) {k : Nat} (h : 16 ≤ k) : liveEntry s k = none :=
  if_neg (Nat.not_lt.mpr (Nat.le_trans s.sp_le h))

/-- Settles O43: `inspect` selector by selector; the three partial ports ask `readPixel`, `liveEntry` and the address. -/
theorem readPortsAnswerWhatExists : Obligations.ReadPortsAnswerWhatExists := by
  refine ⟨rfl, rfl, fun s => ⟨fun _ => rfl, rfl, rfl, rfl, rfl, rfl, rfl, fun _ _ => rfl, fun k => ?_, fun k hk => ?_,
    fun a => ?_, fun _ _ => rfl⟩⟩
  · rw [inspect, liveEntry_eq]
    split <;> rfl
  · rw [inspect, liveEntry_of_ge s hk, Option.map_none]
  · rw [inspect]
    exact if_congr Nat.lt_succ_iff rfl rfl

end Sys2Proof.Machine
end

section
/-! PROOFS. The index register and the memory instructions (43_index_memory_timer.md): `Fx1E`, `Fx29`, `Fx33`, `Fx55`,
`Fx65`, whole and cut short by a fault, and code that stores over itself (20_memory.md section 5). -/

namespace Sys2Proof.Machine

/-! ### `Fx1E` and `Fx29` -/

/-- Settles O29: I is written as a 16-bit sum, or as a glyph's address, which fits. -/
theorem addIndexAndGlyphAddress : Obligations.AddIndexAndGlyphAddress := fun x s =>
  ⟨⟨s.setI (indexPlus s.i (s.readV x)), rfl, BitVec.toNat_ofNat _ 16, frame_setI s _⟩,
    ⟨s.setI (glyphAddress (s.readV x)), rfl, toNat_glyphAddress _, frame_setI s _⟩⟩

/-! ### Some bytes of a run stored from I on -/

/-- The state with the first `k` of the bytes stored from I on. -/
def withStored (bs : List Byte) (k : Nat) (s : State) : State := s.setMem (s.mem.writeBytes s.i.toNat (bs.take k))

theorem withStored_length (bs : List Byte) (s : State) :
    withStored bs bs.length s = s.setMem (s.mem.writeBytes s.i.toNat bs) := by
  rw [withStored, List.take_length]

theorem frame_withStored (bs : List Byte) (k : Nat) (s : State) : Frame [.mem] s (withStored bs k s) := frame_setMem s _

section
variable {bs : List Byte} {k : Nat} {s : State}

theorem keepsMemoryOutside_withStored (hk : k ≤ bs.length) :
    KeepsMemoryOutside s.i.toNat k s (withStored bs k s) := by
  have h := keepsMemoryOutside_writeBytes s s.i.toNat (bs.take k)
  rwa [List.length_take_of_le hk] at h

/-- Each of the stored bytes is read back. -/
theorem read_withStored (hwf : s.mem.wf = true) (hk : k ≤ bs.length) (hin : ∀ j, j < k → s.i.toNat + j ≤ 0xFFF) {j : Nat}
    (hj : j < k) : (withStored bs k s).mem.read (s.i.toNat + j) = bs[j] := by
  have hlen : (bs.take k).length = k := List.length_take_of_le hk
  have hfits : s.i.toNat + (bs.take k).length ≤ Config.memSize := by
    have hlast := hin (k - 1) (by omega)
    simp only [hlen, Config.memSize]
    omega
  exact (Memory.read_writeBytes hwf hfits j (hj.trans_eq hlen.symm)).trans List.getElem_take

theorem storeBytes_eq_withStored (h : s.i.toNat + bs.length ≤ 4096) :
    storeBytes Config.fontWritePolicy bs (dataAddress s) s = .next (withStored bs bs.length s) := by
  rw [withStored_length]
  exact storeBytes_store_ok bs s.i.toNat s h

theorem storeBytes_eq_raise (hk : k < bs.length) (hin : ∀ j, j < k → s.i.toNat + j ≤ 0xFFF)
    (hout : 0xFFF < s.i.toNat + k) : storeBytes Config.fontWritePolicy bs (dataAddress s) s =
      .next ((withStored bs k s).raise (.memoryOutOfRange (s.i.toNat + k))) :=
  storeBytes_store_fault bs s.i.toNat k s hk (fun j hj => Nat.lt_succ_of_le (hin j hj)) hout

end

/-- Under the policy `fault` a store whose `k`-th byte is the first in the font region stops there. -/
theorem storeBytes_fault_of_inFont (bs : List Byte) (a k : Nat) (s : State) (hk : k < bs.length)
    (hbelow : ∀ j, j < k → a + j < 0x050) (hlo : 0x050 ≤ a + k) (hhi : a + k ≤ 0x09F) :
    storeBytes .fault bs a s = .next ((s.setMem (s.mem.writeBytes a (bs.take k))).raise (.fontWrite (a + k))) := by
  induction bs generalizing a k s with
  | nil => exact absurd hk (Nat.not_lt_zero k)
  | cons b bs ih =>
    cases k with
    | zero =>
      have hstop : memWrite .fault s a b = .error (.fontWrite a) := memWrite_fault_of_inFont b hlo hhi
      simp only [storeBytes, hstop]
      rfl
    | succ k =>
      have hfirst : a < 0x050 := hbelow 0 k.succ_pos
      have hwrite : memWrite .fault s a b = .ok (s.setMem (s.mem.write a b)) := by
        rw [memWrite_fault_of_not_inFont b (.inl hfirst)]
        exact memWrite_store_ok b (Nat.lt_trans hfirst (by decide))
      have hnext : a + 1 + k = a + (k + 1) := by omega
      simp only [storeBytes, hwrite]
      rw [ih (a + 1) k _ (Nat.lt_of_succ_lt_succ hk) (fun j hj => by have := hbelow (j + 1) (by omega); omega)
        (hnext ▸ hlo) (hnext ▸ hhi), hnext]
      rfl

/-! ### `Fx33` -/

theorem encodedAs_ldB (x : RegIdx) : EncodedAs 0xF033 0xF0FF (.ldB x) :=
  encodedAs_of_encodeXS opcodeTable[27] rfl rfl (congrArg Instr.ldB (fieldX_encodeXKK _ _ _))

/-- The decimal digit of a byte that `Fx33` stores at I + `k`. -/
def bcdDigit (b : Byte) : Nat → Nat
  | 0 => b.toNat / 100
  | 1 => b.toNat / 10 % 10
  | _ => b.toNat % 10

@[simp] theorem length_bcdDigits (b : Byte) : (bcdDigits b).length = 3 := rfl

theorem toNat_getElem_bcdDigits (b : Byte) {k : Nat} (hk : k < 3) : ((bcdDigits b)[k]'hk).toNat = bcdDigit b k := by
  have hb : b.toNat < 256 := b.isLt
  match k with
  | 0 | 1 | 2 =>
    simp only [bcdDigits, bcdDigit, List.getElem_cons_zero, List.getElem_cons_succ, BitVec.toNat_ofNat]
    omega

theorem read_withStored_bcdDigits {s : State} {b : Byte} {k j : Nat} (hwf : s.mem.wf = true) (hk : k ≤ 3)
    (hin : ∀ j, j < k → s.i.toNat + j ≤ 0xFFF) (hj : j < k) :
    ((withStored (bcdDigits b) k s).mem.read (s.i.toNat + j)).toNat = bcdDigit b j :=
  (congrArg BitVec.toNat (read_withStored hwf hk hin hj)).trans (toNat_getElem_bcdDigits b (hj.trans_le hk))

theorem exec_ldB_of_fits (x : RegIdx) {s : State} (h : s.i.toNat + 2 ≤ 0xFFF) :
    exec (.ldB x) s = .next (withStored (bcdDigits (s.readV x)) 3 s) :=
  storeBytes_eq_withStored (bs := bcdDigits (s.readV x)) (Nat.succ_le_succ h)

/-- An `Fx33` that stops with fault `f` at its `k`-th digit: the digits before it are stored, and no other byte changes. -/
theorem bcd_stopped {s : State} {x : RegIdx} {k : Nat} {f : Fault} {r : Result} (hwf : s.mem.wf = true) (hk : k < 3)
    (hin : ∀ j, j < k → s.i.toNat + j ≤ 0xFFF) (hr : r = .next ((withStored (bcdDigits (s.readV x)) k s).raise f)) :
    ∃ t, r = .next t ∧ t.status = .faulted f ∧ (0 < k → (t.mem.read s.i.toNat).toNat = (s.readV x).toNat / 100) ∧
      (1 < k → (t.mem.read (s.i.toNat + 1)).toNat = (s.readV x).toNat / 10 % 10) ∧
      KeepsMemoryOutside s.i.toNat k s t ∧ KeepsAllBut [.mem] s t :=
  ⟨_, hr, rfl, read_withStored_bcdDigits (j := 0) hwf hk.le hin, read_withStored_bcdDigits (j := 1) hwf hk.le hin,
    keepsMemoryOutside_withStored (bs := bcdDigits (s.readV x)) hk.le, (frame_withStored _ k s).1.raise f⟩

/-- Settles O31: all three digits, or those below the first address that does not exist, or, under the policy `fault`,
those below the font. -/
theorem bcdStoresDigits : Obligations.BcdStoresDigits := by
  intro x s
  refine ⟨encodedAs_ldB x, fun hwf => ⟨fun hfits => ?_, fun k hk hout hin => ?_, fun k hk hlo hhi hbelow => ?_⟩⟩
  · have hin : ∀ j, j < 3 → s.i.toNat + j ≤ 0xFFF := fun j hj => by omega
    exact ⟨_, exec_ldB_of_fits x hfits, read_withStored_bcdDigits (j := 0) hwf le_rfl hin (by decide),
      read_withStored_bcdDigits (j := 1) hwf le_rfl hin (by decide),
      read_withStored_bcdDigits (j := 2) hwf le_rfl hin (by decide),
      keepsMemoryOutside_withStored (length_bcdDigits _).ge,
      frame_withStored _ 3 s⟩
  · exact bcd_stopped hwf hk hin (storeBytes_eq_raise (bs := bcdDigits (s.readV x)) hk hin hout)
  · have hin : ∀ j, j < k → s.i.toNat + j ≤ 0xFFF := fun j hj => by
      have := hbelow j hj
      omega
    exact bcd_stopped hwf hk hin (storeBytes_fault_of_inFont (bcdDigits (s.readV x)) _ k s hk hbelow hlo hhi)

/-! ### `Fx55` and `Fx65` -/

theorem exec_ldMemVx_of_fits {x : RegIdx} {s : State} (h : s.i.toNat + x.val ≤ 0xFFF) :
    exec (.ldMemVx x) s = .next (withStored (regBlock s x) (x.val + 1) s) := by
  rw [← length_regBlock s x]
  refine storeBytes_eq_withStored ?_
  rw [length_regBlock]
  omega

theorem read_withStored_regBlock {s : State} {x j : RegIdx} {k : Nat} (hwf : s.mem.wf = true) (hk : k ≤ x.val + 1)
    (hin : ∀ j, j < k → s.i.toNat + j ≤ 0xFFF) (hj : j.val < k) :
    (withStored (regBlock s x) k s).mem.read (s.i.toNat + j.val) = s.readV j := by
  rw [read_withStored hwf (hk.trans_eq (length_regBlock s x).symm) hin hj, getElem_regBlock]

/-- Settles O32: every byte of the register block is stored. -/
theorem storeRegisterBlock : Obligations.StoreRegisterBlock := by
  intro x s hwf hfits
  exact ⟨_, exec_ldMemVx_of_fits hfits,
    fun j hj => read_withStored_regBlock hwf le_rfl (fun k hk => by omega) (Nat.lt_succ_of_le hj),
    keepsMemoryOutside_withStored (length_regBlock s x).ge, frame_withStored _ _ s⟩

/-- Settles O33: `loadRegs_ok` for the registers from V0 on. -/
theorem loadRegisterBlock : Obligations.LoadRegisterBlock := by
  intro x s hfits
  obtain ⟨t, hexec, ht, hread⟩ := loadRegs_ok (x.val + 1) 0 s (by omega) (by simp only [Config.memSize]; omega)
  refine ⟨t, hexec, fun j hj => ?_, keepsAllBut_setV_vBelow ht fun j hj => ?_, ?_⟩
  · rw [hread, if_pos (by omega)]
  · rw [hread, if_neg (by omega)]
  · rw [ht, State.setV_status]

/-- Settles O34: each of the two loops stops at access `k`, and what the accesses before it did stays. -/
theorem registerBlockFaultKeepsPrefix : Obligations.RegisterBlockFaultKeepsPrefix := by
  intro x k s hwf hk hout hin
  constructor
  · have hlt : k < (regBlock s x).length := by
      rw [length_regBlock]
      exact Nat.lt_succ_of_le hk
    exact ⟨_, storeBytes_eq_raise hlt hin hout, rfl,
      fun j hj => read_withStored_regBlock hwf (Nat.le_succ_of_le hk) hin hj, keepsMemoryOutside_withStored hlt.le,
      (frame_withStored _ k s).1.raise _⟩
  · obtain ⟨t, hexec, ht, hread⟩ := loadRegs_fault (x.val + 1) 0 k s (Nat.lt_succ_of_le hk) (by omega)
      (fun j hj => Nat.lt_succ_of_le (hin j hj)) hout
    refine ⟨_, hexec, rfl, fun j hj => ?_, (keepsAllBut_setV_vBelow ht fun j hj => ?_).raise _⟩
    · rw [State.readV_raise, hread, if_pos (by omega)]
    · rw [hread, if_neg (by omega)]

/-- Settles O35: `Fx65` reads back the bytes that `Fx55` stored. -/
theorem storeThenLoadRoundTrip : Obligations.StoreThenLoadRoundTrip := by
  intro x s hwf hfits
  obtain ⟨t, hexec, hstored, _, ⟨_, hi, _⟩, _⟩ := storeRegisterBlock x s hwf hfits
  refine ⟨t, hexec, fun t' hmem hi' => ?_⟩
  have hindex : t'.i = s.i := hi'.trans (hi (by decide))
  obtain ⟨u, hload, hloaded, _⟩ := loadRegisterBlock x t' (hindex ▸ hfits)
  refine ⟨u, hload, fun j hj => ?_⟩
  rw [hloaded j hj, hmem, hindex, hstored j hj]

/-! ### Stored code -/

/-- Settles O36: the fetch reads memory as the store left it. -/
theorem storedCodeIsFetched : Obligations.StoredCodeIsFetched := by
  intro x s hwf hpc
  have hfetch : ∀ bs k, fetchWord (withStored bs k s) = .ok (wordOfBytes
      ((withStored bs k s).mem.read s.pc.toNat) ((withStored bs k s).mem.read (s.pc.toNat + 1))) :=
    fun _ _ => fetchWord_setMem _ (Nat.lt_succ_of_le hpc)
  refine ⟨fun hfits => ?_, fun hfits => ?_⟩
  · have hread : ∀ j : RegIdx, j.val ≤ x.val →
        (withStored (regBlock s x) (x.val + 1) s).mem.read (s.i.toNat + j.val) = s.readV j :=
      fun j hj => read_withStored_regBlock hwf le_rfl (fun k hk => by omega) (Nat.lt_succ_of_le hj)
    have hkept := keepsMemoryOutside_withStored (s := s) (length_regBlock s x).ge
    refine ⟨_, _, exec_ldMemVx_of_fits hfits, rfl, hfetch _ _, ?_, ?_, ?_, ?_⟩ <;>
      simp only [hiByte_wordOfBytes, loByte_wordOfBytes]
    · exact fun j hj hat => hat ▸ hread j hj
    · exact fun j hj hat => hat ▸ hread j hj
    · exact fun hout => hkept _ (by omega)
    · exact fun hout => hkept _ (by omega)
  · have hread : ∀ k d, (k = 0 ∧ d = (s.readV x).toNat / 100) ∨ (k = 1 ∧ d = (s.readV x).toNat / 10 % 10) ∨
        (k = 2 ∧ d = (s.readV x).toNat % 10) →
        ((withStored (bcdDigits (s.readV x)) 3 s).mem.read (s.i.toNat + k)).toNat = d := by
      have hin : ∀ j, j < 3 → s.i.toNat + j ≤ 0xFFF := fun j hj => by omega
      rintro k d (⟨rfl, rfl⟩ | ⟨rfl, rfl⟩ | ⟨rfl, rfl⟩) <;>
        exact read_withStored_bcdDigits hwf le_rfl hin (by decide)
    have hkept := keepsMemoryOutside_withStored (s := s) (length_bcdDigits (s.readV x)).ge
    refine ⟨_, _, exec_ldB_of_fits x hfits, rfl, hfetch _ _, ?_, ?_, ?_⟩ <;>
      simp only [hiByte_wordOfBytes, loByte_wordOfBytes]
    · exact fun k d hdigit => ⟨fun hat => hat ▸ hread k d hdigit, fun hat => hat ▸ hread k d hdigit⟩
    · exact fun hout => hkept _ (by omega)
    · exact fun hout => hkept _ (by omega)

end Sys2Proof.Machine
end

section
/-! PROOFS. `Dxyn` (40_display.md R69..R74): the clipped XOR with its collision flag, a draw cut short by a fault, and
sprites drawn twice. -/

namespace Sys2Proof.Machine

/-! ### A sprite sees memory and I only -/

theorem DrawFrame.spriteBit_eq {s t : State} (h : DrawFrame s t) (x0 y0 n px py : Nat) :
    spriteBit t x0 y0 n px py = spriteBit s x0 y0 n px py := by
  obtain ⟨_, _, rfl⟩ := h
  rfl

theorem DrawFrame.spriteReadable {s t : State} {y0 n : Nat} (h : DrawFrame s t) (hs : SpriteReadable s y0 n) :
    SpriteReadable t y0 n := by
  obtain ⟨_, _, rfl⟩ := h
  exact hs

theorem DrawFrame.frame {s t : State} (h : DrawFrame s t) : Frame [.fb, .v 15] s t := ⟨h.keepsAllBut, h.status_eq⟩

/-! ### A draw whose rows are all readable -/

/-- Some lit pixel of the display meets a 1-bit of the sprite. -/
def Collides (s : State) (x0 y0 n : Nat) : Prop :=
  ∃ px py, px < 64 ∧ py < 32 ∧ spriteBit s x0 y0 n px py = true ∧ s.fb.pix px py = true

/-- What `t` is to `s` after the `n`-row sprite is drawn at `(x0, y0)`. -/
structure Drawn (x0 y0 n : Nat) (s t : State) : Prop where
  frame : DrawFrame s t
  pix : ∀ px py, px < 64 → py < 32 → t.fb.pix px py = (s.fb.pix px py ^^ spriteBit s x0 y0 n px py)
  vf_of_collides : Collides s x0 y0 n → t.readV 15 = 1
  vf_of_not_collides : ¬ Collides s x0 y0 n → t.readV 15 = 0

/-- The rows drawn on the state with VF cleared are the draw (R70). -/
theorem DrawnRows.drawn {x0 y0 n : Nat} {s t : State} (h : DrawnRows x0 y0 0 n (s.writeV regVF 0) t) :
    Drawn x0 y0 n s t := by
  have hbit : ∀ px py, rowsBit (s.writeV regVF 0) x0 y0 0 n px py = spriteBit s x0 y0 n px py :=
    fun px py => rowsBit_zero _ x0 y0 n px py
  obtain ⟨hframe, hpix, hvf1, hvf0⟩ := h
  simp only [hbit, State.writeV_fb] at hpix hvf1 hvf0
  exact ⟨(DrawFrame.writeVF s 0).trans hframe, hpix, hvf1, fun hno => (hvf0 hno).trans (State.readV_writeV_self s _ 0)⟩

theorem exec_drw_of_readable {x y : RegIdx} {n : RowCount} {s : State} {x0 y0 : Nat}
    (hx0 : x0 = (s.readV x).toNat % 64) (hy0 : y0 = (s.readV y).toNat % 32) (hs : SpriteReadable s y0 n.val) :
    ∃ t, exec (.drw x y n) s = .next t ∧ Drawn x0 y0 n.val s t := by
  obtain ⟨t, hexec, ht⟩ := drawRows_ok x0 y0 n.val 0 (s.writeV regVF 0) fun r _ hr hrow => hs r (by omega) hrow
  subst hx0 hy0
  exact ⟨t, hexec, ht.drawn⟩

/-- Settles O38: the four facts of `Drawn`. -/
theorem drawXorsClippedSprite : Obligations.DrawXorsClippedSprite := by
  intro x y n s x0 y0 hx0 hy0 hs
  obtain ⟨t, hexec, ht⟩ := exec_drw_of_readable hx0 hy0 hs
  exact ⟨t, hexec, ht.pix, ht.vf_of_collides, ht.vf_of_not_collides, ht.frame.frame⟩

/-! ### A draw cut short -/

/-- Settles O39: the rows before the unreadable one are those of the shorter draw. -/
theorem drawFaultKeepsRowsDrawn : Obligations.DrawFaultKeepsRowsDrawn := by
  intro x y n r s hr hrow hout hin
  obtain ⟨t, hexec, ht, hfault⟩ := drawRows_fault (startCol s x) (startRow s y) n.val r.val 0 (s.writeV regVF 0) hr hrow
    (fun q hq => Nat.lt_succ_of_le (hin q hq)) hout
  exact ⟨t, hexec, ((DrawFrame.writeVF s 0).trans ht).status_eq, hfault⟩

/-! ### The same sprite drawn twice -/

/-- A second draw from the same start finds the same sprite. -/
theorem exec_drw_again {x y : RegIdx} {n : RowCount} {s t : State} {x0 y0 : Nat} (ht : Drawn x0 y0 n.val s t)
    (hs : SpriteReadable s y0 n.val) (hx0 : (t.readV x).toNat % 64 = x0) (hy0 : (t.readV y).toNat % 32 = y0) :
    ∃ u, exec (.drw x y n) t = .next u ∧ Drawn x0 y0 n.val t u :=
  exec_drw_of_readable hx0.symm hy0.symm (ht.frame.spriteReadable hs)

/-- Settles O40: XOR with the same bits twice. -/
theorem drawTwiceRestoresDisplay : Obligations.DrawTwiceRestoresDisplay := by
  intro x y n s hs
  obtain ⟨t, hexec, ht⟩ := exec_drw_of_readable rfl rfl hs
  refine ⟨t, hexec, fun hx0 hy0 => ?_⟩
  obtain ⟨u, hexec', hu⟩ := exec_drw_again ht hs hx0 hy0
  refine ⟨u, hexec', fun px py hpx hpy => ?_⟩
  rw [hu.pix px py hpx hpy, ht.pix px py hpx hpy, ht.frame.spriteBit_eq, Bool.xor_assoc, Bool.xor_self, Bool.xor_false]

/-- The 1-bits of a sprite lie in its 8 columns and `n` rows. -/
theorem exists_offset_of_spriteBit {s : State} {x0 y0 n px py : Nat} (h : spriteBit s x0 y0 n px py = true) :
    ∃ a b, a < 8 ∧ b < n ∧ px = x0 + a ∧ py = y0 + b := by
  simp only [spriteBit, Bool.and_eq_true, decide_eq_true_eq] at h
  exact ⟨px - x0, py - y0, by omega, by omega, by omega, by omega⟩

/-- Every bit of a row 0xFF is set. -/
theorem spriteBit_of_full {s : State} {x0 y0 n a b : Nat} (hfull : s.mem.read (s.i.toNat + b) = 0xFF) (ha : a < 8)
    (hb : b < n) : spriteBit s x0 y0 n (x0 + a) (y0 + b) = true := by
  have hbits : ∀ k, k < 8 → (0xFF : Byte).getLsbD k = true := by decide
  have hbit : (0xFF : Byte).getLsbD (7 - a) = true := hbits _ (by omega)
  simpa [spriteBit, hfull, ha, hb] using hbit

/-- Settles O41: on dark pixels nothing collides and all 64 light; then they all collide and darken. -/
theorem fullSpriteDrawnTwice : Obligations.FullSpriteDrawnTwice := by
  intro x y s hfull hin hx hy hdark
  have hs : SpriteReadable s ((s.readV y).toNat % 32) 8 := fun r hr _ => by
    simp only [Config.memSize]
    omega
  obtain ⟨t, hexec, ht⟩ := exec_drw_of_readable (x := x) (y := y) (n := 8) rfl rfl hs
  generalize (s.readV x).toNat % 64 = x0 at *
  generalize (s.readV y).toNat % 32 = y0 at *
  have hbit : ∀ a b, a < 8 → b < 8 → spriteBit s x0 y0 8 (x0 + a) (y0 + b) = true :=
    fun a b ha hb => spriteBit_of_full (hfull b hb) ha hb
  have hnone : ¬ Collides s x0 y0 8 := by
    rintro ⟨px, py, _, _, hone, hlit⟩
    obtain ⟨a, b, ha, hb, rfl, rfl⟩ := exists_offset_of_spriteBit hone
    rw [hdark a b ha hb] at hlit
    cases hlit
  have hlit : ∀ a b, a < 8 → b < 8 → t.fb.pix (x0 + a) (y0 + b) = true := fun a b ha hb => by
    rw [ht.pix _ _ (by omega) (by omega), hdark a b ha hb, Bool.false_xor]
    exact hbit a b ha hb
  refine ⟨t, hexec, ht.vf_of_not_collides hnone, hlit, fun hx0 hy0 => ?_⟩
  obtain ⟨u, hexec', hu⟩ := exec_drw_again ht hs hx0 hy0
  have hbit' : ∀ a b, a < 8 → b < 8 → spriteBit t x0 y0 8 (x0 + a) (y0 + b) = true := fun a b ha hb => by
    rw [ht.frame.spriteBit_eq]
    exact hbit a b ha hb
  refine ⟨u, hexec', hu.vf_of_collides ⟨x0 + 0, y0 + 0, by omega, by omega, ?_, ?_⟩, fun a b ha hb => ?_⟩
  · exact hbit' 0 0 (by decide) (by decide)
  · exact hlit 0 0 (by decide) (by decide)
  · rw [hu.pix _ _ (by omega) (by omega), hlit a b ha hb]
    exact congrArg (true ^^ ·) (hbit' a b ha hb)

end Sys2Proof.Machine
end
